-- ==== Sys2Proof/Word.lean ====
section
/-! DEFINITION. The widths the spec names: bytes, words, command words, byte strings, 64-byte blocks and digests
(00_scope.md R6 to R9, 30_encoding.md R51). -/

namespace Sys2Proof

/-- A byte: 8 bits, bit 7 the most significant (R7, R39). -/
abbrev Byte := BitVec 8

/-- A word of the chaining value: 64 bits, unsigned (R7, R16). -/
abbrev Word := BitVec 64

/-- A command word on the port CMD: 16 bits (R25, R51). -/
abbrev CmdWord := BitVec 16

/-- A byte string, byte 0 first (R8). -/
abbrev ByteString := List Byte

/-- What the spec calls a *state* of the permutations: a byte string of 64 bytes (R9). Chaining values, message blocks
and every intermediate value are of this type; its matrix and word views are in Machine/Views.lean. -/
abbrev Block := Vector Byte 64

/-- The digest: 32 bytes, byte 0 first (R23). -/
abbrev Digest := Vector Byte 32

end Sys2Proof
end

