-- ==== Sys2Proof/Syntax.lean ====
section
/-! DEFINITION. The commands of the core: one constructor per row of spec/opcode_table.json, and the two fields of the one
command format (30_encoding.md R52, R54). -/

namespace Sys2Proof

/-- The three commands (30_encoding.md R54). RESET and FINAL carry no operand: their IMM8 field must be zero (R53). -/
inductive Instr where
  /-- `RESET` (42_commands.md R88). -/
  | reset
  /-- `ABSORB imm8`, the immediate being the message byte (R53, 42_commands.md R89). -/
  | absorb (imm8 : BitVec 8)
  /-- `FINAL` (42_commands.md R90). -/
  | final
  deriving DecidableEq, Repr

/-- A command word taken apart as format C: `OPC = word[15:8]`, `IMM8 = word[7:0]` (R52). -/
structure FormatC where
  opc : BitVec 8
  imm8 : BitVec 8
  deriving DecidableEq, Repr

end Sys2Proof
end

