-- ==== Sys2Proof/WellFormed.lean ====
section
/-! DEFINITION. Which words of format C are commands (30_encoding.md R53, R54, R56), and which instruction terms are
well-formed. The range of ABSORB's immediate is carried by its type and RESET and FINAL have no operand field, so every term of
Instr is well-formed; the checks that can fail are those on a word's two fields. -/

namespace Sys2Proof

/-- The opcode is one of the three of the opcode map (R54). R56: every word with `OPC = 0x00` or `OPC >= 0x04` is illegal. -/
def FormatC.opcodeDefined (f : FormatC) : Bool :=
  decide (0x01 ≤ f.opc.toNat) && decide (f.opc.toNat ≤ 0x03)

/-- RESET and FINAL carry no operand and their IMM8 must be zero; ABSORB takes every byte (R53, R56). -/
def FormatC.immAllowed (f : FormatC) : Bool :=
  f.opc == 0x02#8 || f.imm8 == 0x00#8

/-- The word is one of the 258 command words (R54, R56). -/
def FormatC.wf (f : FormatC) : Bool :=
  f.opcodeDefined && f.immAllowed

/-- Every instruction term is well-formed: all 256 values of ABSORB's immediate are legal (R53). -/
def Instr.wf : Instr → Bool
  | .reset => true
  | .absorb _ => true
  | .final => true

end Sys2Proof
end

