-- ==== Sys2Proof/Decode.lean ====
section
/-! DEFINITION. Decoding a command word, total on the 65536 words and rejecting by name (30_encoding.md R51 to R57), and the
encoder (R54). The core fetches nothing (10_state.md R26), so no byte order enters: the host presents 16 bits at once. -/

namespace Sys2Proof

/-- Why a word is ILLEGAL, by the classes R56 names. -/
inductive Reject where
  /-- `OPC = 0x00` or `OPC >= 0x04`. -/
  | opcodeUndefined (opc : BitVec 8)
  /-- The words `0x0101` to `0x01FF`: RESET with a non-zero IMM8. -/
  | resetWithOperand (imm8 : BitVec 8)
  /-- The words `0x0301` to `0x03FF`: FINAL with a non-zero IMM8. -/
  | finalWithOperand (imm8 : BitVec 8)
  deriving DecidableEq, Repr

/-- `OPC = word[15:8]`, `IMM8 = word[7:0]` (R52). -/
def formatOf (w : CmdWord) : FormatC :=
  { opc := w.extractLsb' 8 8, imm8 := w.extractLsb' 0 8 }

/-- The class of an illegal word (R56). -/
def rejectReason (f : FormatC) : Reject :=
  if f.opc = 0x01#8 then .resetWithOperand f.imm8
  else if f.opc = 0x03#8 then .finalWithOperand f.imm8
  else .opcodeUndefined f.opc

/-- R55, its tests in the order it gives them. -/
def decode (w : CmdWord) : Except Reject Instr :=
  if w = 0x0100#16 then .ok .reset
  else if (formatOf w).opc = 0x02#8 then .ok (.absorb (formatOf w).imm8)
  else if w = 0x0300#16 then .ok .final
  else .error (rejectReason (formatOf w))

/-- The fields of a command, from the opcode map (R54). -/
def formatOfInstr : Instr → FormatC
  | .reset => { opc := 0x01#8, imm8 := 0x00#8 }
  | .absorb imm8 => { opc := 0x02#8, imm8 := imm8 }
  | .final => { opc := 0x03#8, imm8 := 0x00#8 }

/-- The word of a command: OPC above IMM8 (R52, R54). -/
def encode (i : Instr) : CmdWord :=
  (formatOfInstr i).opc ++ (formatOfInstr i).imm8

/-- The one word of an instruction as the opcode table numbers its bits; every bit at or above `nbits` is 0. -/
def wordOfTable (nbits w : Nat) : CmdWord :=
  BitVec.ofNat 16 (w % 2 ^ nbits)

/-- What the decoder reads from an instruction whose bits are `w`. A command is one word of 16 bits (R51), so no longer one
is read. -/
def decodeTableWord (nbits w : Nat) : Option Instr :=
  if nbits ≤ 16 then
    match decode (wordOfTable nbits w) with
    | .ok i => some i
    | .error _ => none
  else none

end Sys2Proof
end

