-- ==== Sys2Proof/Machine/Operands.lean ====
section
/-! DEFINITION. The operand forms: there is one, ABSORB's immediate (30_encoding.md R52, R53). No command names a register or
an address. -/

namespace Sys2Proof.Machine

/-- The message byte `b = zext_8(word[7:0])`: not sign-extended, scaled or shifted (R53), its most significant bit
`imm8[7]` (20_memory.md R39). -/
def messageByte (imm8 : BitVec 8) : Byte :=
  imm8.setWidth 8

end Sys2Proof.Machine
end

