-- ==== Sys2Proof/Config.lean ====
section
/-! DEFINITION. The parameters of the core, all fixed (00_scope.md R6). The spec leaves no parameter open and asks for no
free value: R95 says every next state and output is a function of the state and the command word, and the one value without
a definition, the DIGEST port outside FINALIZED, is given no value at all (93_implementation_defined.md U1). -/

namespace Sys2Proof.Config

/-- `ROUNDS`: rounds of P and of Q (R6, R76). -/
abbrev rounds : Nat := 10

/-- `OUT_BITS`: the output length in bits (R6). -/
abbrev outBits : Nat := 256

/-- `BLOCK_BYTES`, which is also `STATE_BYTES`: bytes of a message block (R6). -/
abbrev blockBytes : Nat := 64

/-- `LEN_FIELD_BYTES`: bytes of the length field (R6). -/
abbrev lenFieldBytes : Nat := 8

/-- `BUF_MAX`: the most bytes BUF holds between two commands (R6, R20). -/
abbrev bufMax : Nat := 63

/-- The largest value BLKCNT can hold, `2^64 - 1` (`CNT_BITS` is 64: R6, R19). -/
abbrev cntMax : Nat := 2 ^ 64 - 1

end Sys2Proof.Config
end

