-- ==== Sys2Proof/Machine/Field.lean ====
section
/-! DEFINITION. Arithmetic on bytes as elements of GF(2^8) and the S-box (40_permutation.md R61 to R65). -/

namespace Sys2Proof.Machine

/-- The product of two bytes as polynomials with coefficients modulo 2, not reduced (R61). -/
def polyMul (a b : Byte) : BitVec 15 :=
  (List.range 8).foldl (fun p i => if b.getLsbD i then p ^^^ (a.setWidth 15 <<< i) else p) 0

/-- The remainder modulo `x^8 + x^4 + x^3 + x + 1`, the bit pattern `0x11B` (R61): the powers 14 down to 8 are cleared. -/
def polyReduce (p : BitVec 15) : Byte :=
  ((List.range 7).foldl (fun q i => if q.getLsbD (14 - i) then q ^^^ (0x11B#15 <<< (6 - i)) else q) p).setWidth 8

/-- Multiplication in GF(2^8) (R61). The datapath multiplies only by the constants of `mul2` to `mul7`; this is the field the
rules define them by. -/
def gfMul (a b : Byte) : Byte :=
  polyReduce (polyMul a b)

/-- `xtime(a)`: `t = a << 1` (9 bits); if `t[8] = 1` then `(t XOR 0x11B)[7:0]` else `t[7:0]` (R62). -/
def xtime (a : Byte) : Byte :=
  let t : BitVec 9 := a.setWidth 9 <<< 1
  if t.getLsbD 8 then (t ^^^ 0x11B#9).setWidth 8 else t.setWidth 8

/-- `mul2(a) = xtime(a)` (R63). -/
def mul2 (a : Byte) : Byte := xtime a

/-- `mul4(a) = xtime(xtime(a))` (R63). -/
def mul4 (a : Byte) : Byte := xtime (xtime a)

/-- `mul3(a) = mul2(a) XOR a` (R63). -/
def mul3 (a : Byte) : Byte := mul2 a ^^^ a

/-- `mul5(a) = mul4(a) XOR a` (R63). -/
def mul5 (a : Byte) : Byte := mul4 a ^^^ a

/-- `mul7(a) = mul4(a) XOR mul2(a) XOR a` (R63). -/
def mul7 (a : Byte) : Byte := mul4 a ^^^ mul2 a ^^^ a

/-- The table of R65, one row of 16 entries a line, column `_0` leftmost. -/
def sboxRows : List (BitVec 128) :=
  [0x637C777BF26B6FC53001672BFED7AB76#128,
   0xCA82C97DFA5947F0ADD4A2AF9CA472C0#128,
   0xB7FD9326363FF7CC34A5E5F171D83115#128,
   0x04C723C31896059A071280E2EB27B275#128,
   0x09832C1A1B6E5AA0523BD6B329E32F84#128,
   0x53D100ED20FCB15B6ACBBE394A4C58CF#128,
   0xD0EFAAFB434D338545F9027F503C9FA8#128,
   0x51A3408F929D38F5BCB6DA2110FFF3D2#128] ++
  [0xCD0C13EC5F974417C4A77E3D645D1973#128,
   0x60814FDC222A908846EEB814DE5E0BDB#128,
   0xE0323A0A4906245CC2D3AC629195E479#128,
   0xE7C8376D8DD54EA96C56F4EA657AAE08#128,
   0xBA78252E1CA6B4C6E8DD741F4BBD8B8A#128,
   0x703EB5664803F60E613557B986C11D9E#128,
   0xE1F8981169D98E949B1E87E9CE5528DF#128,
   0x8CA1890DBFE6426841992D0FB054BB16#128]

/-- `SBOX[a]`: for `a = 0xHL` the entry in row `H` and column `L` of the table (R65). -/
def sbox (a : Byte) : Byte :=
  (sboxRows.getD (a.toNat / 16) 0).extractLsb' (8 * (15 - a.toNat % 16)) 8

/-- The multiplicative inverse in the field, and 0 for 0 (R64), as the power `a^254`: `a^2, a^3, a^6, a^12, a^15, a^30, a^60,
a^120, a^240, a^252, a^254` (DEDUCED, log 6). -/
def gfInv (a : Byte) : Byte :=
  let a2 := gfMul a a
  let a3 := gfMul a2 a
  let a6 := gfMul a3 a3
  let a12 := gfMul a6 a6
  let a15 := gfMul a12 a3
  let a30 := gfMul a15 a15
  let a60 := gfMul a30 a30
  let a120 := gfMul a60 a60
  let a240 := gfMul a120 a120
  let a252 := gfMul a240 a12
  gfMul a252 a2

/-- `b XOR rotl8(b,1) XOR rotl8(b,2) XOR rotl8(b,3) XOR rotl8(b,4) XOR 0x63` (R64). -/
def sboxAffine (b : Byte) : Byte :=
  b ^^^ b.rotateLeft 1 ^^^ b.rotateLeft 2 ^^^ b.rotateLeft 3 ^^^ b.rotateLeft 4 ^^^ 0x63#8

/-- The algebraic definition of the S-box, which governs the table (R64). The datapath reads the table; that the two agree is a
statement for the provers. -/
def sboxAlgebraic (a : Byte) : Byte :=
  sboxAffine (gfInv a)

end Sys2Proof.Machine
end

