-- ==== Sys2Proof/Machine/Views.lean ====
section
/-! DEFINITION. The byte, matrix and word views of a 64-byte block (10_state.md R17) and the byte order of integers
(00_scope.md R8, 20_memory.md R34 to R37). Indices are plain numbers; a row, a column and a word number are 0 to 7, a byte
number 0 to 63; no rule's computation reaches the default of `getD` outside these (log 10). -/

namespace Sys2Proof.Machine

/-- Byte view: `S[k]` (R17). -/
def byteOf (S : Block) (k : Nat) : Byte :=
  S.toList.getD k 0

/-- The block whose byte `k` is `f k`. -/
def blockOfBytes (f : Nat → Byte) : Block :=
  ⟨((List.range 64).map f).toArray, by simp⟩

/-- Matrix view: `M[r][c] = S[8c + r]`, row `r`, column `c` (R17, R35). -/
def cellOf (S : Block) (r c : Nat) : Byte :=
  byteOf S (8 * c + r)

/-- The block whose cell in row `r` and column `c` is `f r c`. Every cell is computed from the same inputs (00_scope.md R9). -/
def blockOfCells (f : Nat → Nat → Byte) : Block :=
  blockOfBytes fun k => f (k % 8) (k / 8)

/-- Word view: `W[c]` is column `c` with row 0 in its least significant byte (R17, R34). -/
def wordOf (S : Block) (c : Nat) : Word :=
  cellOf S 7 c ++ cellOf S 6 c ++ cellOf S 5 c ++ cellOf S 4 c ++ cellOf S 3 c ++ cellOf S 2 c ++ cellOf S 1 c ++ cellOf S 0 c

/-- The eight words of a block. -/
def wordsOfBlock (S : Block) : Vector Word 8 :=
  #v[wordOf S 0, wordOf S 1, wordOf S 2, wordOf S 3, wordOf S 4, wordOf S 5, wordOf S 6, wordOf S 7]

/-- The block that eight words stand for: `M[r][c] = W[c][8r+7 : 8r]` (R17). -/
def blockOfWords (W : Vector Word 8) : Block :=
  blockOfCells fun r c => (W.toList.getD c 0).extractLsb' (8 * r) 8

/-- The block of a byte string of 64 bytes, byte 0 first. -/
def blockOfString (bs : ByteString) : Block :=
  blockOfBytes fun k => bs.getD k 0

/-- `XOR` of two blocks, bytewise (R8). -/
def blockXor (a b : Block) : Block :=
  blockOfBytes fun k => byteOf a k ^^^ byteOf b k

/-- `BE64(n)`: byte `j` is `n[63-8j : 56-8j]`, most significant byte first (R8, R36). -/
def be64 (n : BitVec 64) : ByteString :=
  (List.range 8).map fun j => n.extractLsb' (56 - 8 * j) 8

/-- `LE64(n)`: byte `j` is `n[8j+7 : 8j]`, least significant byte first (R8, R34). -/
def le64 (n : BitVec 64) : ByteString :=
  (List.range 8).map fun j => n.extractLsb' (8 * j) 8

end Sys2Proof.Machine
end

