-- ==== Sys2Proof/Machine/Permutation.lean ====
section
/-! DEFINITION. The permutation core: the four stages, the rounds and the permutations P and Q (40_permutation.md R66 to R78).
All are pure and total. Where the source's prose differs (90_conflicts.md C1, C3) the rules are followed. -/

namespace Sys2Proof.Machine

/-- `AddRoundConstantP(M, i)`, `i` in 0 to 9: row 0 is XORed with `(16 * c) XOR i` (R67). Other indices: log 10. -/
def addRoundConstantP (M : Block) (i : Nat) : Block :=
  blockOfCells fun r c =>
    if r = 0 then cellOf M r c ^^^ BitVec.ofNat 8 (16 * c ^^^ i) else cellOf M r c

/-- `AddRoundConstantQ(M, i)`, `i` in 0 to 9 (others: log 10): rows 0 to 6 are XORed with `0xFF`, row 7 with `0xFF XOR (16 * c) XOR i` (R68). -/
def addRoundConstantQ (M : Block) (i : Nat) : Block :=
  blockOfCells fun r c =>
    if r < 7 then cellOf M r c ^^^ 0xFF#8 else cellOf M r c ^^^ BitVec.ofNat 8 (0xFF ^^^ 16 * c ^^^ i)

/-- `SubBytes(M)` (R69). -/
def subBytes (M : Block) : Block :=
  blockOfCells fun r c => sbox (cellOf M r c)

/-- `sigmaP[r]` (R70). -/
def sigmaP (r : Nat) : Nat :=
  [0, 1, 2, 3, 4, 5, 6, 7].getD r 0

/-- `sigmaQ[r]` (R71). -/
def sigmaQ (r : Nat) : Nat :=
  [1, 3, 5, 7, 0, 2, 4, 6].getD r 0

/-- Row `r` rotated left by `sigma[r]`: `M'[r][c] = M[r][(c + sigma[r]) mod 8]` (R70, R71). -/
def shiftBytes (sigma : Nat → Nat) (M : Block) : Block :=
  blockOfCells fun r c => cellOf M r ((c + sigma r) % 8)

/-- `ShiftBytesP(M)` (R70). -/
def shiftBytesP (M : Block) : Block :=
  shiftBytes sigmaP M

/-- `ShiftBytesQ(M)` (R71). -/
def shiftBytesQ (M : Block) : Block :=
  shiftBytes sigmaQ M

/-- `MixBytes(M)`, as R72 writes it out. -/
def mixBytes (M : Block) : Block :=
  blockOfCells fun r c =>
    mul2 (cellOf M r c) ^^^ mul2 (cellOf M ((r + 1) % 8) c) ^^^ mul3 (cellOf M ((r + 2) % 8) c)
      ^^^ mul4 (cellOf M ((r + 3) % 8) c) ^^^ mul5 (cellOf M ((r + 4) % 8) c) ^^^ mul3 (cellOf M ((r + 5) % 8) c)
      ^^^ mul5 (cellOf M ((r + 6) % 8) c) ^^^ mul7 (cellOf M ((r + 7) % 8) c)

/-- The coefficients `b` of the circulant matrix (R72). -/
def mixCoefficient (j : Nat) : Byte :=
  [0x02#8, 0x02#8, 0x03#8, 0x04#8, 0x05#8, 0x03#8, 0x05#8, 0x07#8].getD j 0

/-- `B[r][k] = b[(k - r) mod 8]` (R72). -/
def mixMatrix (r k : Nat) : Byte :=
  mixCoefficient ((k + 8 - r) % 8)

/-- `RoundP(M, i)` (R73). -/
def roundP (M : Block) (i : Nat) : Block :=
  mixBytes (shiftBytesP (subBytes (addRoundConstantP M i)))

/-- `RoundQ(M, i)` (R73). -/
def roundQ (M : Block) (i : Nat) : Block :=
  mixBytes (shiftBytesQ (subBytes (addRoundConstantQ M i)))

/-- `P(S)`: ten rounds, indices 0 to 9 in ascending order (R74, R76). -/
def permP (S : Block) : Block :=
  (List.range Config.rounds).foldl roundP S

/-- `Q(S)`: ten rounds, indices 0 to 9 in ascending order (R75, R76). -/
def permQ (S : Block) : Block :=
  (List.range Config.rounds).foldl roundQ S

end Sys2Proof.Machine
end

