-- ==== Sys2Proof/Machine/Compression.lean ====
section
/-! DEFINITION. Compression function, initial value, padding, output transform, digest, and the whole function Groestl256
(41_compression_output.md R79 to R86). All are pure. 90_conflicts.md C2, C5 and C7 are followed. -/

namespace Sys2Proof.Machine

/-- `compress(h, m) = P(h XOR m) XOR Q(m) XOR h` (R79). -/
def compress (h m : Block) : Block :=
  blockXor (blockXor (permP (blockXor h m)) (permQ m)) h

/-- Blocks absorbed in order, each result feeding the next call (R80). -/
def absorbBlocks (h : Block) (blks : List Block) : Block :=
  blks.foldl compress h

/-- `IV`: zero in bytes 0 to 55 and `BE64(256)` in bytes 56 to 63, not passed through P (R81, C2). -/
def ivBlock : Block :=
  blockOfString (List.replicate 56 0 ++ be64 (BitVec.ofNat 64 Config.outBits))

/-- `k`, the number of padding blocks for `L` buffered bytes (R82, R90). -/
def padBlockCount (L : Nat) : Nat :=
  if L ≤ 55 then 1 else 2

/-- `pad(B, N)` for `B` of 0 to 63 bytes and a count `N + k` below `2^64` (R82). Outside these the rule gives no value; that the
function is total there, the length field taken modulo `2^64`, is the model's choice (DESIGN CHOICE, log 10). FINAL tests the
count first, so no command gets there. -/
def pad (B : ByteString) (N : Nat) : List Block :=
  if B.length ≤ 55 then
    [blockOfString (B ++ [0x80#8] ++ List.replicate (55 - B.length) 0 ++ be64 (BitVec.ofNat 64 (N + 1)))]
  else
    [blockOfString (B ++ [0x80#8] ++ List.replicate (63 - B.length) 0),
     blockOfString (List.replicate 56 0 ++ be64 (BitVec.ofNat 64 (N + 2)))]

/-- `outputTransform(h) = h XOR P(h)` (R84). -/
def outputTransform (h : Block) : Block :=
  blockXor h (permP h)

/-- `digest(o)`: bytes 32 to 63 (R85, R37). -/
def digestOf (o : Block) : Digest :=
  ⟨((List.range 32).map fun j => byteOf o (32 + j)).toArray, by simp⟩

/-- The full blocks `m1, ..., mt` of a message, `t = floor(n / 64)` (R86, R38). -/
def fullBlocks (m : ByteString) : List Block :=
  (List.range (m.length / 64)).map fun j => blockOfBytes fun k => m.getD (64 * j + k) 0

/-- The remainder `B` of `n mod 64` bytes (R86). -/
def restBytes (m : ByteString) : ByteString :=
  m.drop (64 * (m.length / 64))

/-- `Groestl256(m)` for a message whose block count fits 64 bits (R86, R92); of a longer one it is the model's choice, as in `pad`
(DESIGN CHOICE, log 10). -/
def groestl256 (m : ByteString) : Digest :=
  digestOf (outputTransform
    (absorbBlocks (absorbBlocks ivBlock (fullBlocks m)) (pad (restBytes m) (m.length / 64))))

end Sys2Proof.Machine
end

