-- ==== Sys2Proof/Machine/State.lean ====
section
/-! DEFINITION. The state of one core, as plain data: the seven items of 10_state.md R15, and two fields of the model's own
for the host's side of the ports (log 1, log 5). Also the reset state (R30) and the reasons a step can stop. -/

namespace Sys2Proof.Machine

/-- PHASE (10_state.md R21). The value 3 of the 2-bit register is never held, so it has no constructor. -/
inductive Phase where
  /-- `ACTIVE = 0`: the hash state accepts input. -/
  | active
  /-- `FINALIZED = 1`: FINAL has completed, DIGEST is valid. -/
  | finalized
  /-- `FAULT = 2`: a fault was raised; only RESET is honoured. -/
  | fault
  deriving DecidableEq, Repr

/-- ERRCODE (10_state.md R22, 60_exceptions.md R96). -/
inductive ErrCode where
  /-- `NONE = 0`. -/
  | none
  /-- `USE_AFTER_FINAL = 1` (R97). -/
  | useAfterFinal
  /-- `ILLEGAL_CMD = 2` (R98). -/
  | illegalCmd
  /-- `COUNTER_OVERFLOW = 3` (R99). -/
  | counterOverflow
  deriving DecidableEq, Repr

/-- One move of the host: the rows of the table of 70_reset_and_hazards.md R127, which lists everything the host can do. -/
inductive HostMove where
  /-- Present a 16-bit word on CMD (10_state.md R25). -/
  | present (w : CmdWord)
  /-- Read the port STATUS (10_state.md R24). -/
  | readStatus
  /-- Read the port DIGEST (10_state.md R23). -/
  | readDigest
  /-- Apply hardware reset between two steps (70_reset_and_hazards.md R115). -/
  | hardwareReset
  deriving DecidableEq, Repr

/-- What the host gets back from a move: the column of that name in the table of R127. A read of DIGEST that has no defined
value gives back `digest none` (10_state.md R23, 93_implementation_defined.md U1; log 2). -/
inductive Reply where
  | nothing
  | status (v : BitVec 16)
  | digest (v : Option Digest)
  deriving DecidableEq, Repr

/-- The block buffer as pairs of address and byte (20_memory.md R33), addresses strictly rising (`Memory.wf`,
Machine/Ops.lean). An address that is not listed has no value (10_state.md R20, D25; log 3). -/
abbrev Memory := List Host.Cell

/-- The state of one core: R15's seven items, then the model's own two fields. -/
structure State where
  /-- `CV[0..7]`: the chaining value, the core's only register file (R16). -/
  cv : Vector Word 8
  /-- `BLKCNT`: blocks absorbed since reset (R19). -/
  blkcnt : BitVec 64
  /-- `BUF`: message bytes not yet absorbed (R20). -/
  buf : Memory
  /-- `BUFLEN`: how many bytes BUF holds, the cursor (R20). -/
  buflen : BitVec 6
  /-- `PHASE` (R21). -/
  phase : Phase
  /-- `ERRCODE`: the first fault since reset (R22). -/
  errcode : ErrCode
  /-- `DIGEST[0..31]`; `none` is the spec's own condition "invalid (no defined value)" (R23, R30; log 2). -/
  digest : Option Digest
  /-- The model's own: what the host will do, next move first (R126, R127; log 1). The core has no command queue (R25). -/
  moves : List HostMove
  /-- The model's own: what the host's last move gave back (R127; log 5). -/
  reply : Reply
  deriving DecidableEq, Repr

/-- The state after reset (10_state.md R30): `CV = IV` by its words, BLKCNT 0, BUF empty, PHASE ACTIVE, ERRCODE NONE, DIGEST
invalid. That the host has no move to make yet and was given nothing is the model's choice (log 1, log 5). -/
def State.reset : State where
  cv := #v[0, 0, 0, 0, 0, 0, 0, 0x0001000000000000]
  blkcnt := 0
  buf := []
  buflen := 0
  phase := .active
  errcode := .none
  digest := .none
  moves := []
  reply := .nothing

/-- Why the model stops. None of this is a fault of the spec, whose three faults are next states (60_exceptions.md R102). -/
inductive Fault where
  /-- Raised by ABSORB and FINAL where they read a byte of BUF that has no value (10_state.md R20: "never read before it is
  written"). No state with the invariants of R32 gets here; safe (log 3). -/
  | bufByteWithoutValue (addr : Nat)
  deriving DecidableEq, Repr

/-- Why the model gives an instruction no meaning. -/
inductive Refusal where
  /-- Raised by an arm of `exec` whose instruction has no meaning yet: no arm does. Safe. -/
  | notModelled (mnemonic : String)
  deriving DecidableEq, Repr

/-- The three ways a step ends in this model (Host/Core.lean). -/
abbrev Result := Host.Outcome State Fault Refusal

end Sys2Proof.Machine
end

