-- ==== Sys2Proof/Machine/Flags.lean ====
section
/-! DEFINITION. The status register and the one comparison that ends in a fault. The core has no condition codes; its only
flag-like state is PHASE and ERRCODE (10_state.md R24, R27, 42_commands.md R94). -/

namespace Sys2Proof.Machine

/-- The 2-bit value of PHASE (R21). -/
def Phase.code : Phase → BitVec 2
  | .active => 0
  | .finalized => 1
  | .fault => 2

/-- The 2-bit value of ERRCODE (R22). -/
def ErrCode.code : ErrCode → BitVec 2
  | .none => 0
  | .useAfterFinal => 1
  | .illegalCmd => 2
  | .counterOverflow => 3

/-- STATUS: `[1:0] = PHASE`, `[3:2] = ERRCODE`, `[9:4] = BUFLEN`, `[15:10]` always 0 (R24). -/
def statusOf (s : State) : BitVec 16 :=
  0#6 ++ s.buflen ++ s.errcode.code ++ s.phase.code

/-- The port DIGEST: valid exactly while `PHASE = FINALIZED`, elsewhere without a value (R23, U1; log 2). -/
def digestPort (s : State) : Option Digest :=
  match s.phase with
  | .finalized => s.digest
  | .active => .none
  | .fault => .none

/-- Absorbing `k` more blocks would need a count above `2^64 - 1` (R94, 60_exceptions.md R99). -/
def counterOverflows (s : State) (k : Nat) : Bool :=
  decide (Config.cntMax < s.blkcnt.toNat + k)

end Sys2Proof.Machine
end

