-- ==== Sys2Proof/Machine/Ops.lean ====
section
/-! DEFINITION. The named operations: the accesses to the block buffer (00_scope.md R10, 20_memory.md R33), fault entry and
reset, the common frame of a step (42_commands.md R87), and the writes of the commands. -/

namespace Sys2Proof.Machine

/-! ### The block buffer -/

/-- What an address that is not listed reads as: no value (10_state.md R20, D25; log 3). -/
def unlistedByte : Option Byte := none

/-- The byte at an address. -/
def memByte : Memory → Nat → Option Byte
  | [], _ => unlistedByte
  | (a, b) :: m, addr => if a = addr then some b else memByte m addr

/-- `MemWrite(addr, 1, v)`, keeping the addresses strictly rising. The address has 6 bits, so no write leaves the buffer. -/
def memWrite : Memory → BitVec 6 → Byte → Memory
  | [], addr, v => [(addr.toNat, v)]
  | (a, b) :: m, addr, v =>
    if addr.toNat < a then (addr.toNat, v) :: (a, b) :: m
    else if addr.toNat = a then (a, v) :: m
    else (a, b) :: memWrite m addr v

/-- `MemRead(addr, n)`: the bytes at `addr` to `addr + n - 1`, or the first address among them that has no value. -/
def memRead (m : Memory) (addr : Nat) : Nat → Except Nat ByteString
  | 0 => .ok []
  | n + 1 =>
    match memByte m addr with
    | none => .error addr
    | some b =>
      match memRead m (addr + 1) n with
      | .ok bs => .ok (b :: bs)
      | .error a => .error a

/-- The canonical form: addresses strictly rising and inside the buffer. No entry can equal what an unlisted address reads as,
since that is no value. -/
def Memory.wf : Memory → Bool
  | [] => true
  | [(a, _)] => decide (a < 64)
  | (a, _) :: (a', b') :: m => decide (a < a') && Memory.wf ((a', b') :: m)

/-! ### Fault entry and reset -/

/-- Fault entry with code `e`: `PHASE <- FAULT; ERRCODE <- e`, DIGEST invalid, every other item as before the step
(60_exceptions.md R102). -/
def raiseFault (e : ErrCode) (s : State) : State :=
  { s with phase := .fault, errcode := e, digest := .none }

/-- The step of RESET and of hardware reset: the whole state to its reset values (42_commands.md R88, 70_reset_and_hazards.md
R115). It is also the only return from phase FAULT (60_exceptions.md R104). The host's side is not the core's state. -/
def resetCore (s : State) : State :=
  { State.reset with moves := s.moves, reply := s.reply }

/-- The frame of ABSORB and FINAL (R87, R101): ignored in FAULT (R103), `USE_AFTER_FINAL` in FINALIZED (R97), `body` in
ACTIVE. -/
def inActivePhase (body : State → Result) (s : State) : Result :=
  match s.phase with
  | .active => body s
  | .finalized => .next (raiseFault .useAfterFinal s)
  | .fault => .next s

/-- A step whose word is ILLEGAL: ignored in FAULT (R103), otherwise `ILLEGAL_CMD` (R98, 30_encoding.md R56). -/
def illegalWord (s : State) : State :=
  match s.phase with
  | .active => raiseFault .illegalCmd s
  | .finalized => raiseFault .illegalCmd s
  | .fault => s

/-! ### What the commands write -/

/-- The chaining value as a block (10_state.md R17). -/
def cvBlock (s : State) : Block :=
  blockOfWords s.cv

/-- `MemWrite(BUFLEN, 1, b)`, `BUFLEN <- BUFLEN + 1`, for BUFLEN up to 62 (R89, R94; log 10). -/
def bufferByte (b : Byte) (s : State) : State :=
  { s with buf := memWrite s.buf s.buflen b, buflen := s.buflen + 1 }

/-- `CV <- compress(CV, blk)`, `BLKCNT <- BLKCNT + 1`, `BUFLEN <- 0` and BUF becomes empty (R89, 10_state.md R32 I7), the
count having been tested to fit 64 bits (R94; log 10). -/
def absorbFullBlock (blk : Block) (s : State) : State :=
  { s with cv := wordsOfBlock (compress (cvBlock s) blk), blkcnt := s.blkcnt + 1, buf := [], buflen := 0 }

/-- The output state of FINAL: the padding blocks of the buffered bytes `B` absorbed in order, then the output transform
(R90). -/
def finalOutput (B : ByteString) (s : State) : Block :=
  outputTransform (absorbBlocks (cvBlock s) (pad B s.blkcnt.toNat))

/-- What FINAL writes once its `k` padding blocks are counted, the sum having been tested to fit 64 bits (R90, R94; log 10). -/
def finalizeWith (o : Block) (k : Nat) (s : State) : State :=
  { s with
    cv := wordsOfBlock o
    blkcnt := BitVec.ofNat 64 (s.blkcnt.toNat + k)
    buf := []
    buflen := 0
    digest := some (digestOf o)
    phase := .finalized }

end Sys2Proof.Machine
end

