-- ==== Sys2Proof/Machine/Commands.lean ====
section
/-! DEFINITION. The meanings of RESET, ABSORB and FINAL (42_commands.md R87 to R90). -/

namespace Sys2Proof.Machine

/-- `RESET`: honoured in every phase, raises no fault (R88). -/
def execReset (s : State) : Result :=
  .next (resetCore s)

/-- The pseudocode of R89, in phase ACTIVE. -/
def absorbActive (b : Byte) (s : State) : Result :=
  if s.buflen.toNat < Config.bufMax then .next (bufferByte b s)
  else if counterOverflows s 1 then .next (raiseFault .counterOverflow s)
  else
    match memRead (memWrite s.buf 63#6 b) 0 Config.blockBytes with
    | .ok blk => .next (absorbFullBlock (blockOfString blk) s)
    | .error a => .fault (.bufByteWithoutValue a)

/-- `ABSORB imm8` (R87, R89). -/
def execAbsorb (imm8 : BitVec 8) (s : State) : Result :=
  inActivePhase (absorbActive (messageByte imm8)) s

/-- The pseudocode of R90, in phase ACTIVE. The overflow test comes before anything is read or written. -/
def finalActive (s : State) : Result :=
  if counterOverflows s (padBlockCount s.buflen.toNat) then .next (raiseFault .counterOverflow s)
  else
    match memRead s.buf 0 s.buflen.toNat with
    | .ok B => .next (finalizeWith (finalOutput B s) (padBlockCount s.buflen.toNat) s)
    | .error a => .fault (.bufByteWithoutValue a)

/-- `FINAL` (R87, R90). -/
def execFinal (s : State) : Result :=
  inActivePhase finalActive s

end Sys2Proof.Machine
end

