-- ==== Sys2Proof/Machine/Dispatch.lean ====
section
/-! DEFINITION. One command, one meaning. -/

namespace Sys2Proof.Machine

def exec (i : Instr) (s : State) : Host.Outcome State Fault Refusal :=
  match i with
  | .reset => Sys2Proof.Machine.execReset s
  | .absorb imm8 => Sys2Proof.Machine.execAbsorb imm8 s
  | .final => Sys2Proof.Machine.execFinal s

end Sys2Proof.Machine
end

