-- ==== Sys2Proof/Machine/Port.lean ====
section
/-! DEFINITION. The host's moves at the core's ports (10_state.md R23 to R25, 70_reset_and_hazards.md R115, R127). -/

namespace Sys2Proof.Machine

/-- One word on CMD: decoded and performed, or illegal (10_state.md R25, 42_commands.md R87). -/
def presentWord (w : CmdWord) (s : State) : Result :=
  match decode w with
  | .ok i => exec i s
  | .error _ => .next (illegalWord s)

/-- Read STATUS: no side effect on the core (R24, 20_memory.md R43). -/
def readStatusPort (s : State) : State :=
  { s with reply := .status (statusOf s) }

/-- Read DIGEST: no side effect on the core (R23, 20_memory.md R43). -/
def readDigestPort (s : State) : State :=
  { s with reply := .digest (digestPort s) }

/-- One move of the host. -/
def hostMove (mv : HostMove) (s : State) : Result :=
  match mv with
  | .present w => presentWord w s
  | .readStatus => .next (readStatusPort s)
  | .readDigest => .next (readDigestPort s)
  | .hardwareReset => .next (resetCore s)

/-- The host's next move is taken off its list, and what the move before it gave back is gone. -/
def takeMove (rest : List HostMove) (s : State) : State :=
  { s with moves := rest, reply := .nothing }

/-- The host puts a word before its other moves. -/
def presentNext (w : CmdWord) (s : State) : State :=
  { s with moves := .present w :: s.moves }

/-- The host will present these words in this order: a run in the sense of 70_reset_and_hazards.md R126. -/
def presentAll (ws : List CmdWord) (s : State) : State :=
  { s with moves := ws.map .present }

end Sys2Proof.Machine
end

