-- ==== Sys2Proof/Machine/Step.lean ====
section
/-! DEFINITION. One step: the host's next move, or, where the host makes none, the core idle with all state held
(60_exceptions.md R114, 70_reset_and_hazards.md R117; log 4). -/

namespace Sys2Proof.Machine

def step (s : State) : Host.Outcome State Fault Refusal :=
  match s.moves with
  | [] => .next s
  | mv :: rest => hostMove mv (takeMove rest s)

/-- `s` with that word as the one the host presents next (log 1). -/
def State.withFetchWord (s : State) (nbits w : Nat) : State :=
  presentNext (wordOfTable nbits w) s

end Sys2Proof.Machine
end

