-- ==== Sys2Proof/Machine/Assembler.lean ====
section
/-! DEFINITION. Assembler lines, the pseudo-instructions UPDATE and HASH, and programs as lists of command words
(30_encoding.md R58 to R60). Text is a list of characters. What the spec leaves open in the form of a line is log 7. -/

namespace Sys2Proof.Machine

/-- What one line stands for. -/
inductive AsmStmt where
  | command (i : Instr)
  | update (bs : ByteString)
  | hash (bs : ByteString)
  deriving DecidableEq, Repr

/-- Why a line is an assembly error. -/
inductive AsmError where
  | unknownMnemonic
  | operandUnexpected
  /-- Not a number, a quoted character, a string or a list of such. -/
  | operandMalformed
  /-- A value above 255: "an assembly error, not a command" (R58). -/
  | operandOutOfRange
  deriving DecidableEq, Repr

/-- The commands of `UPDATE`: one ABSORB per byte in order, none for an empty list (R59). -/
def updateCommands (bs : ByteString) : List Instr :=
  bs.map .absorb

/-- The commands of `HASH`: RESET, `UPDATE`, FINAL (R60). -/
def hashCommands (bs : ByteString) : List Instr :=
  .reset :: updateCommands bs ++ [.final]

/-- The commands a line expands to (R58 to R60). -/
def expandStmt : AsmStmt → List Instr
  | .command i => [i]
  | .update bs => updateCommands bs
  | .hash bs => hashCommands bs

/-! ### Reading a line -/

def isBlank (c : Char) : Bool :=
  c == ' ' || c == '\t' || c == '\r'

def trimBlanks (cs : List Char) : List Char :=
  ((cs.dropWhile isBlank).reverse.dropWhile isBlank).reverse

/-- The line up to its comment: a semicolon outside quotes starts it (R58). The flag says whether a double quote is open. -/
def stripComment : Bool → List Char → List Char
  | _, [] => []
  | true, c :: cs => c :: stripComment (c != '"') cs
  | false, '\'' :: c :: '\'' :: cs => '\'' :: c :: '\'' :: stripComment false cs
  | false, c :: cs => if c = ';' then [] else c :: stripComment (c == '"') cs

def decDigit (c : Char) : Option Nat :=
  if '0' ≤ c ∧ c ≤ '9' then some (c.toNat - 48) else none

def hexDigit (c : Char) : Option Nat :=
  if '0' ≤ c ∧ c ≤ '9' then some (c.toNat - 48)
  else if 'A' ≤ c ∧ c ≤ 'F' then some (c.toNat - 55)
  else if 'a' ≤ c ∧ c ≤ 'f' then some (c.toNat - 87)
  else none

/-- The value of a run of digits, `acc` being the value of the digits before it. -/
def digitsValue (digit : Char → Option Nat) (base : Nat) : Nat → List Char → Option Nat
  | acc, [] => some acc
  | acc, c :: cs =>
    match digit c with
    | some d => digitsValue digit base (acc * base + d) cs
    | none => none

/-- The number a `<byte>` is written as: decimal, `0x` hexadecimal, or one printable ASCII character in single quotes (R58). That
a number may have any number of digits, leading zeros among them, is the model's choice (DESIGN CHOICE, log 7). -/
def byteLiteral : List Char → Option Nat
  | [] => none
  | ['\'', c, '\''] => if 0x20 ≤ c.toNat ∧ c.toNat ≤ 0x7E then some c.toNat else none
  | '0' :: 'x' :: d :: ds => digitsValue hexDigit 16 0 (d :: ds)
  | cs => digitsValue decDigit 10 0 cs

/-- A `<byte>`: 0 to 255 (R58). -/
def byteOperand (cs : List Char) : Except AsmError Byte :=
  match byteLiteral (trimBlanks cs) with
  | none => .error .operandMalformed
  | some n => if n < 256 then .ok (BitVec.ofNat 8 n) else .error .operandOutOfRange

/-- The pieces between commas that stand outside single quotes; `acc` is the piece so far, last character first. -/
def splitCommas : List Char → List Char → List (List Char)
  | acc, [] => [acc.reverse]
  | acc, '\'' :: c :: '\'' :: cs => splitCommas ('\'' :: c :: '\'' :: acc) cs
  | acc, c :: cs => if c = ',' then acc.reverse :: splitCommas [] cs else splitCommas (c :: acc) cs

def byteList : List (List Char) → Except AsmError ByteString
  | [] => .ok []
  | p :: ps =>
    match byteOperand p, byteList ps with
    | .ok b, .ok bs => .ok (b :: bs)
    | .error e, _ => .error e
    | .ok _, .error e => .error e

/-- An even number of hexadecimal digits, byte 0 first (R59). -/
def hexBytes : List Char → Except AsmError ByteString
  | [] => .ok []
  | [_] => .error .operandMalformed
  | a :: b :: cs =>
    match hexDigit a, hexDigit b, hexBytes cs with
    | some x, some y, .ok bs => .ok (BitVec.ofNat 8 (16 * x + y) :: bs)
    | _, _, _ => .error .operandMalformed

/-- The inside of a double-quoted ASCII string, the opening quote being read: its characters' codes in order (R59). -/
def stringBytes : List Char → Except AsmError ByteString
  | [] => .error .operandMalformed
  | ['"'] => .ok []
  | c :: cs =>
    if c = '"' ∨ 128 ≤ c.toNat then .error .operandMalformed
    else
      match stringBytes cs with
      | .ok bs => .ok (BitVec.ofNat 8 c.toNat :: bs)
      | .error e => .error e

/-- `<bytes>` of UPDATE and HASH: nothing, a string, `hex:` digits, or a list of `<byte>` (R59). -/
def bytesOperand : List Char → Except AsmError ByteString
  | [] => .ok []
  | '"' :: cs => stringBytes cs
  | 'h' :: 'e' :: 'x' :: ':' :: cs => hexBytes cs
  | cs => byteList (splitCommas [] cs)

/-- The statement of a mnemonic and its operand text (R58 to R60). Mnemonics are upper case. -/
def parseStmt (mnemonic operand : List Char) : Except AsmError AsmStmt :=
  if mnemonic = ['R', 'E', 'S', 'E', 'T'] then
    if operand = [] then .ok (.command .reset) else .error .operandUnexpected
  else if mnemonic = ['F', 'I', 'N', 'A', 'L'] then
    if operand = [] then .ok (.command .final) else .error .operandUnexpected
  else if mnemonic = ['A', 'B', 'S', 'O', 'R', 'B'] then
    match byteOperand operand with
    | .ok b => .ok (.command (.absorb b))
    | .error e => .error e
  else if mnemonic = ['U', 'P', 'D', 'A', 'T', 'E'] then
    match bytesOperand operand with
    | .ok bs => .ok (.update bs)
    | .error e => .error e
  else if mnemonic = ['H', 'A', 'S', 'H'] then
    match bytesOperand operand with
    | .ok bs => .ok (.hash bs)
    | .error e => .error e
  else .error .unknownMnemonic

/-- The commands of one line; a line that is blank or only a comment has none. -/
def assembleLine (line : List Char) : Except AsmError (List Instr) :=
  let t := trimBlanks (stripComment false line)
  let mnemonic := t.takeWhile fun c => !isBlank c
  if mnemonic = [] then .ok []
  else
    match parseStmt mnemonic (trimBlanks (t.drop mnemonic.length)) with
    | .ok st => .ok (expandStmt st)
    | .error e => .error e

def assembleLines : List (List Char) → Except AsmError (List Instr)
  | [] => .ok []
  | l :: ls =>
    match assembleLine l, assembleLines ls with
    | .ok is, .ok js => .ok (is ++ js)
    | .error e, _ => .error e
    | .ok _, .error e => .error e

/-- A program's encoding: the words of its lines' commands in order (R58). -/
def encodeCommands (is : List Instr) : List CmdWord :=
  is.map encode

/-- The words of a program given as its lines (R58). -/
def assembleProgram (lines : List (List Char)) : Except AsmError (List CmdWord) :=
  match assembleLines lines with
  | .ok is => .ok (encodeCommands is)
  | .error e => .error e

/-! ### Writing a line -/

def hexChar (n : Nat) : Char :=
  ['0', '1', '2', '3', '4', '5', '6', '7', '8', '9', 'A', 'B', 'C', 'D', 'E', 'F'].getD n '0'

/-- Bytes as hexadecimal digits, two a byte, byte 0 first (R59), in upper case (DESIGN CHOICE, log 7). -/
def hexText (bs : ByteString) : List Char :=
  bs.flatMap fun b => [hexChar (b.toNat / 16), hexChar (b.toNat % 16)]

/-- The assembler line of a command, its byte in hexadecimal (R58). -/
def commandLine : Instr → List Char
  | .reset => ['R', 'E', 'S', 'E', 'T']
  | .absorb b => ['A', 'B', 'S', 'O', 'R', 'B', ' ', '0', 'x', hexChar (b.toNat / 16), hexChar (b.toNat % 16)]
  | .final => ['F', 'I', 'N', 'A', 'L']

/-- The line `UPDATE hex:` with the digits of `bs` (R59). -/
def updateLine (bs : ByteString) : List Char :=
  ['U', 'P', 'D', 'A', 'T', 'E', ' ', 'h', 'e', 'x', ':'] ++ hexText bs

/-- The line `HASH hex:` with the digits of `bs` (R59, R60). -/
def hashLine (bs : ByteString) : List Char :=
  ['H', 'A', 'S', 'H', ' ', 'h', 'e', 'x', ':'] ++ hexText bs

end Sys2Proof.Machine
end

