-- ==== Sys2Proof/Safety.lean ====
section
/-! DEFINITION. What counts as a good state and a good run, in the terms the statements use: the invariants of 10_state.md
R32, and what the end state of a run means (60_exceptions.md R105, 70_reset_and_hazards.md R126). -/

namespace Sys2Proof.Machine

/-- BUF holds exactly BUFLEN bytes, at addresses 0 to BUFLEN - 1 (10_state.md R20). -/
abbrev BufferCoherent (s : State) : Prop :=
  s.buf.map Prod.fst = List.range s.buflen.toNat

/-- The bytes buffered, in order of arrival (10_state.md R20). -/
def bufferedBytes (s : State) : ByteString :=
  s.buf.map Prod.snd

/-- The invariants I1 to I4 and I6 of R32. I1, I2 and I6 are carried by the types of BUFLEN, PHASE and BLKCNT; I1 also says
that BUF holds just those bytes. I4 is stated both ways, as R23 says DIGEST is valid exactly while FINALIZED. I5 is
`Absorbed`. -/
structure CoreInv (s : State) : Prop where
  /-- R20, and I1. -/
  buffer : BufferCoherent s
  /-- I3. -/
  errcode : s.errcode ≠ .none ↔ s.phase = .fault
  /-- I4. -/
  finalized : s.phase = .finalized → s.buflen = 0 ∧ 1 ≤ s.blkcnt.toNat
  /-- I4, R23. -/
  digest : s.digest.isSome ↔ s.phase = .finalized

/-- I5 of R32: in phase ACTIVE, with the message bytes `m` absorbed since reset. CV is the IV folded over the full blocks of `m`,
BLKCNT counts them, and BUF holds the rest. -/
structure Absorbed (m : ByteString) (s : State) : Prop where
  phase : s.phase = .active
  errcode : s.errcode = .none
  length : m.length = 64 * s.blkcnt.toNat + s.buflen.toNat
  cv : s.cv = wordsOfBlock (absorbBlocks ivBlock (fullBlocks m))
  buffer : BufferCoherent s
  bytes : bufferedBytes s = restBytes m

/-- What an end state means (R126). -/
inductive RunResult where
  /-- `ACTIVE`: no result was asked for. -/
  | noneAsked
  /-- `FINALIZED`: the run produced what the port DIGEST shows. -/
  | produced (d : Option Digest)
  /-- `FAULT`: the run failed and has no result (R105). -/
  | failed (e : ErrCode)
  deriving DecidableEq, Repr

/-- R126: the end state's meaning is read from PHASE. -/
def runResult (s : State) : RunResult :=
  match s.phase with
  | .active => .noneAsked
  | .finalized => .produced (digestPort s)
  | .fault => .failed s.errcode

end Sys2Proof.Machine
end

