-- ==== Sys2Proof/Certificates/Slice0/Obligations.lean ====
section
/-! DEFINITION. The statements for the provers, in the order of the spec's files: encoding, the step and the ports, the three
commands, faults, invariants, the permutation core, compression and padding, whole messages, the assembler. -/

open Sys2Proof Sys2Proof.Machine

/-! ### Encoding (30_encoding.md) -/

/-- R55: the decoder's four outcomes on the 65536 words. -/
def Obligations.DecodeFollowsTheOpcodeMap : Prop :=
  decode 0x0100#16 = .ok .reset ∧
  (∀ b : BitVec 8, decode (0x02#8 ++ b) = .ok (.absorb b)) ∧
  decode 0x0300#16 = .ok .final ∧
  ∀ w : CmdWord, w ≠ 0x0100#16 → w.extractLsb' 8 8 ≠ 0x02#8 → w ≠ 0x0300#16 → ∃ r, decode w = .error r

/-- R54: the word of each command, and its match under its mask. -/
def Obligations.CommandWordsMatchTheirMasks : Prop :=
  encode .reset = 0x0100#16 ∧
  (∀ b : BitVec 8, (encode (.absorb b)).toNat = 0x0200 + b.toNat) ∧
  encode .final = 0x0300#16 ∧
  (∀ w : CmdWord, w &&& 0xFFFF#16 = 0x0100#16 ↔ decode w = .ok .reset) ∧
  (∀ w : CmdWord, w &&& 0xFF00#16 = 0x0200#16 ↔ ∃ b, decode w = .ok (.absorb b)) ∧
  (∀ w : CmdWord, w &&& 0xFFFF#16 = 0x0300#16 ↔ decode w = .ok .final)

/-- Decoding the word of an instruction gives it back, with every value of its operand; through the table's numbering too. -/
def Obligations.DecodeOfEncodeIsTheInstruction : Prop :=
  ∀ i : Instr, i.wf = true → decode (encode i) = .ok i ∧ decodeTableWord 16 (encode i).toNat = some i

/-- Each command word has one meaning: it is the word of the instruction it decodes to. -/
def Obligations.EncodeOfDecodeIsTheWord : Prop :=
  ∀ (w : CmdWord) (i : Instr), decode w = .ok i → encode i = w

/-- R53, R56: the decoder accepts just the words whose two fields are well-formed. -/
def Obligations.DecodeAcceptsJustWellFormedWords : Prop :=
  ∀ w : CmdWord, (∃ i, decode w = .ok i) ↔ (formatOf w).wf = true

/-- R56: which words are illegal, how many they are, and what presenting one does. -/
def Obligations.IllegalWordsAndTheirEffect : Prop :=
  (∀ w : CmdWord, (∃ r, decode w = .error r) ↔
    (w.toNat / 256 = 0 ∨ 4 ≤ w.toNat / 256 ∨ (0x0101 ≤ w.toNat ∧ w.toNat ≤ 0x01FF) ∨
      (0x0301 ≤ w.toNat ∧ w.toNat ≤ 0x03FF))) ∧
  ((List.range 65536).filter fun n => (decodeTableWord 16 n).isNone).length = 65278 ∧
  ∀ (w : CmdWord) (r : Reject) (s : State), decode w = .error r →
    (s.phase ≠ .fault →
      presentWord w s = .next { s with phase := .fault, errcode := .illegalCmd, digest := none }) ∧
    (s.phase = .fault → presentWord w s = .next s)

/-- Words written out from the opcode map decode to what it says (a sanity statement). -/
def Obligations.WordsOfTheMapDecode : Prop :=
  decode 0b0000000100000000#16 = .ok .reset ∧
  decode 0b0000001001100001#16 = .ok (.absorb 0x61#8) ∧
  decode 0b0000001011111111#16 = .ok (.absorb 0xFF#8) ∧
  decode 0b0000001100000000#16 = .ok .final ∧
  decode 0b0000000000000000#16 = .error (.opcodeUndefined 0x00#8) ∧
  decode 0b0000000100000001#16 = .error (.resetWithOperand 0x01#8) ∧
  decode 0b0000001100000001#16 = .error (.finalWithOperand 0x01#8) ∧
  decode 0b1000001000000000#16 = .error (.opcodeUndefined 0x82#8)

/-! ### The step and the ports (10_state.md, 42_commands.md R87, 70_reset_and_hazards.md) -/

/-- A step runs the decoded command: where the host's next move presents a word that decodes to `i`, the step is `exec i` of the
state with that move taken and the reply of the move before it gone (log 1, log 5). -/
def Obligations.StepRunsTheDecodedCommand : Prop :=
  ∀ (s : State) (w : CmdWord) (rest : List HostMove) (i : Instr),
    s.moves = .present w :: rest → decode w = .ok i →
    step s = exec i { s with moves := rest, reply := .nothing }

/-- A step on an illegal word: R87's first two tests, R98 and R103. -/
def Obligations.StepOnAnIllegalWord : Prop :=
  ∀ (s : State) (w : CmdWord) (rest : List HostMove) (r : Reject),
    s.moves = .present w :: rest → decode w = .error r →
    step s = .next (if s.phase = .fault then { s with moves := rest, reply := .nothing }
      else { s with phase := .fault, errcode := .illegalCmd, digest := none, moves := rest, reply := .nothing })

/-- The word put where the step takes its next one is the one it runs, for every instruction (log 1). -/
def Obligations.FetchedWordIsTheOneRun : Prop :=
  ∀ (s : State) (i : Instr), i.wf = true →
    step (s.withFetchWord 16 (encode i).toNat) = exec i { s with reply := .nothing }

/-- Where the host makes no move the core holds all its state (R114, R117; that this is a step is the model's choice, log 4). -/
def Obligations.IdleStepHoldsTheState : Prop :=
  ∀ s : State, s.moves = [] → step s = .next s

/-- R115: hardware reset is the step of RESET and leaves the reset state. -/
def Obligations.HardwareResetIsTheResetStep : Prop :=
  ∀ (s : State) (rest : List HostMove), s.moves = .hardwareReset :: rest →
    step s = exec .reset { s with moves := rest, reply := .nothing } ∧
    step s = .next { State.reset with moves := rest }

/-- Reading a port changes nothing of the core, gives the port's value, and repeated at once gives it again (R43, R127). -/
def Obligations.PortReadsChangeNothing : Prop :=
  ∀ (s : State) (rest : List HostMove),
    (s.moves = .readStatus :: rest → step s = .next { s with moves := rest, reply := .status (statusOf s) }) ∧
    (s.moves = .readDigest :: rest → s.phase = .finalized →
      step s = .next { s with moves := rest, reply := .digest s.digest }) ∧
    (s.moves = .readDigest :: rest → s.phase ≠ .finalized →
      step s = .next { s with moves := rest, reply := .digest none }) ∧
    (s.moves = .readStatus :: .readStatus :: rest → ∃ t u, step s = .next t ∧ step t = .next u ∧ u.reply = t.reply) ∧
    (s.moves = .readDigest :: .readDigest :: rest → ∃ t u, step s = .next t ∧ step t = .next u ∧ u.reply = t.reply)

/-- R24: the fields of STATUS, its reset value, and that reading it has no side effect (the last in terms of the model's own
fields, log 1, log 5). -/
def Obligations.StatusShowsItsFields : Prop :=
  (∀ s : State,
    (statusOf s).extractLsb' 0 2 =
      (match s.phase with | .active => 0#2 | .finalized => 1#2 | .fault => 2#2) ∧
    (statusOf s).extractLsb' 2 2 =
      (match s.errcode with | .none => 0#2 | .useAfterFinal => 1#2 | .illegalCmd => 2#2 | .counterOverflow => 3#2) ∧
    (statusOf s).extractLsb' 4 6 = s.buflen ∧
    (statusOf s).extractLsb' 10 6 = 0#6) ∧
  statusOf State.reset = 0x0000#16 ∧
  ∀ (s : State) (rest : List HostMove), s.moves = .readStatus :: rest →
    step s = .next { s with moves := rest, reply := .status (statusOf s) }

/-! ### RESET (42_commands.md R88, 10_state.md R30) -/

/-- R88, R93: RESET completes in every phase, what it leaves, and that it is idempotent; no other command leaves FAULT, and none
takes FINALIZED back to ACTIVE. The fields `moves` and `reply` are the host's side, which RESET does not
touch: the model's choice (log 1, log 5). -/
def Obligations.ResetRestoresTheResetState : Prop :=
  (∀ s : State, ∃ t, exec .reset s = .next t ∧
    t.cv = #v[0, 0, 0, 0, 0, 0, 0, 0x0001000000000000] ∧ t.cv = wordsOfBlock ivBlock ∧ t.blkcnt = 0 ∧
    t.buf = [] ∧ t.buflen = 0 ∧ t.phase = .active ∧ t.errcode = .none ∧ t.digest = none ∧ statusOf t = 0x0000#16 ∧
    t.moves = s.moves ∧ t.reply = s.reply ∧ exec .reset t = .next t) ∧
  (∀ (i : Instr) (s t : State), i ≠ .reset → exec i s = .next t → s.phase = .fault → t.phase = .fault) ∧
  (∀ (i : Instr) (s t : State), i ≠ .reset → exec i s = .next t → s.phase = .finalized → t.phase ≠ .active)

/-- R30: the state after reset; `moves` and `reply` are the model's own (log 1, log 5). -/
def Obligations.ResetStateHasTheResetValues : Prop :=
  State.reset.cv = wordsOfBlock ivBlock ∧ (∀ c, c < 7 → State.reset.cv.toList.getD c 1 = 0) ∧
  State.reset.cv.toList.getD 7 0 = 0x0001000000000000#64 ∧ State.reset.blkcnt = 0 ∧ State.reset.buf = [] ∧
  State.reset.buflen = 0 ∧ State.reset.phase = .active ∧ State.reset.errcode = .none ∧ State.reset.digest = none ∧
  statusOf State.reset = 0x0000#16

/-! ### ABSORB (42_commands.md R89) -/

/-- R89: every outcome of ABSORB in ACTIVE and FINALIZED, for a buffer that holds its BUFLEN bytes. -/
def Obligations.AbsorbFollowsItsRule : Prop :=
  ∀ (s : State) (b : BitVec 8), BufferCoherent s →
    (s.phase = .active → s.buflen.toNat < 63 →
      exec (.absorb b) s = .next { s with buf := s.buf ++ [(s.buflen.toNat, b)], buflen := s.buflen + 1 }) ∧
    (s.phase = .active → s.buflen.toNat = 63 → s.blkcnt.toNat < 2 ^ 64 - 1 →
      exec (.absorb b) s = .next { s with
        cv := wordsOfBlock (compress (blockOfWords s.cv) (blockOfString (bufferedBytes s ++ [b])))
        blkcnt := BitVec.ofNat 64 (s.blkcnt.toNat + 1), buf := [], buflen := 0 }) ∧
    (s.phase = .active → s.buflen.toNat = 63 → s.blkcnt.toNat = 2 ^ 64 - 1 →
      exec (.absorb b) s = .next { s with phase := .fault, errcode := .counterOverflow, digest := none }) ∧
    (s.phase = .finalized →
      exec (.absorb b) s = .next { s with phase := .fault, errcode := .useAfterFinal, digest := none })

/-- What ABSORB leaves unchanged when it answers a next state. The byte is stored at the address BUFLEN. -/
def Obligations.AbsorbFrame : Prop :=
  ∀ (s t : State) (b : BitVec 8), exec (.absorb b) s = .next t →
    t.moves = s.moves ∧ t.reply = s.reply ∧
    (s.phase = .active → s.buflen.toNat < 63 →
      t.cv = s.cv ∧ t.blkcnt = s.blkcnt ∧ t.buflen.toNat = s.buflen.toNat + 1 ∧ t.phase = s.phase ∧
      t.errcode = s.errcode ∧ t.digest = s.digest ∧ memByte t.buf s.buflen.toNat = some b ∧
      ∀ a, a ≠ s.buflen.toNat → memByte t.buf a = memByte s.buf a) ∧
    (s.phase = .active → s.buflen.toNat = 63 → s.blkcnt.toNat < 2 ^ 64 - 1 →
      t.phase = s.phase ∧ t.errcode = s.errcode ∧ t.digest = s.digest ∧ t.buflen = 0 ∧ ∀ a, memByte t.buf a = none) ∧
    (t.phase = .fault →
      t.cv = s.cv ∧ t.blkcnt = s.blkcnt ∧ t.buflen = s.buflen ∧ ∀ a, memByte t.buf a = memByte s.buf a)

/-! ### FINAL (42_commands.md R90) -/

/-- R90: every outcome of FINAL in ACTIVE and FINALIZED, for a buffer that holds its BUFLEN bytes. -/
def Obligations.FinalFollowsItsRule : Prop :=
  ∀ s : State, BufferCoherent s →
    let N := s.blkcnt.toNat
    let k := if s.buflen.toNat ≤ 55 then 1 else 2
    let o := outputTransform ((pad (bufferedBytes s) N).foldl compress (blockOfWords s.cv))
    (s.phase = .active → N + k ≤ 2 ^ 64 - 1 →
      exec .final s = .next { s with
        cv := wordsOfBlock o, blkcnt := BitVec.ofNat 64 (N + k), buf := [], buflen := 0
        digest := some (digestOf o), phase := .finalized }) ∧
    (s.phase = .active → 2 ^ 64 - 1 < N + k →
      exec .final s = .next { s with phase := .fault, errcode := .counterOverflow, digest := none }) ∧
    (s.phase = .finalized →
      exec .final s = .next { s with phase := .fault, errcode := .useAfterFinal, digest := none })

/-- What FINAL leaves unchanged when it answers a next state: it stores no byte, and where it completes BUF becomes empty. -/
def Obligations.FinalFrame : Prop :=
  ∀ s t : State, exec .final s = .next t →
    t.moves = s.moves ∧ t.reply = s.reply ∧
    (t.phase = .finalized →
      t.errcode = s.errcode ∧ t.buflen = 0 ∧ (∀ a, memByte t.buf a = none) ∧ s.phase = .active ∧
      s.blkcnt.toNat < t.blkcnt.toNat) ∧
    (t.phase = .fault →
      t.cv = s.cv ∧ t.blkcnt = s.blkcnt ∧ t.buflen = s.buflen ∧ ∀ a, memByte t.buf a = memByte s.buf a) ∧
    t.phase ≠ .active

/-- R20, R33: in a state with the invariants the bytes FINAL reads are the BUFLEN buffered ones, those of a full block are these
and the byte just written, and BUF has no value from BUFLEN up. Storage there is never read before it is written: whatever cells
`stale` it were given (such a state is the model's only, log 3), every command completes to the same state, its buffered bytes
too. -/
def Obligations.CommandsReadNoByteAtOrAboveBuflen : Prop :=
  ∀ (s : State) (stale : Memory), CoreInv s → Memory.wf (s.buf ++ stale) = true →
    (bufferedBytes s).length = s.buflen.toNat ∧ (∀ a, s.buflen.toNat ≤ a → memByte s.buf a = none) ∧
    memRead (s.buf ++ stale) 0 s.buflen.toNat = .ok (bufferedBytes s) ∧
    (∀ b, s.buflen.toNat = 63 → memRead (memWrite (s.buf ++ stale) 63#6 b) 0 64 = .ok (bufferedBytes s ++ [b])) ∧
    ∀ i : Instr, ∃ t t', exec i s = .next t ∧ exec i { s with buf := s.buf ++ stale } = .next t' ∧
      { t' with buf := t.buf } = t ∧ ∀ a, a < t.buflen.toNat → memByte t'.buf a = memByte t.buf a

/-! ### Phases and faults (42_commands.md R93, 60_exceptions.md) -/

/-- R97: ABSORB and FINAL in FINALIZED raise USE_AFTER_FINAL and absorb and digest nothing; RESET there does not fault. -/
def Obligations.UseAfterFinalIsRaised : Prop :=
  ∀ s : State, s.phase = .finalized →
    (∀ b, exec (.absorb b) s = .next { s with phase := .fault, errcode := .useAfterFinal, digest := none }) ∧
    exec .final s = .next { s with phase := .fault, errcode := .useAfterFinal, digest := none } ∧
    ∃ t, exec .reset s = .next t ∧ t.phase = .active ∧ t.errcode = .none

/-- R103: in FAULT every word but RESET's changes no state, legal or not, so ERRCODE keeps the first code. -/
def Obligations.FaultPhaseIgnoresAllButReset : Prop :=
  ∀ s : State, s.phase = .fault →
    (∀ i : Instr, i ≠ .reset → exec i s = .next s) ∧
    (∀ w : CmdWord, w ≠ 0x0100#16 → presentWord w s = .next s) ∧
    ∃ t, presentWord 0x0100#16 s = .next t ∧ t.phase = .active ∧ t.errcode = .none

/-- R102: what fault entry writes and keeps, the STATUS after it, and that a step that enters FAULT does nothing else. -/
def Obligations.FaultEntryWritesOnlyPhaseErrcodeDigest : Prop :=
  (∀ (e : ErrCode) (s : State),
    (raiseFault e s).phase = .fault ∧ (raiseFault e s).errcode = e ∧ (raiseFault e s).digest = none ∧
    (raiseFault e s).cv = s.cv ∧ (raiseFault e s).blkcnt = s.blkcnt ∧ (raiseFault e s).buf = s.buf ∧
    (raiseFault e s).buflen = s.buflen ∧
    (statusOf (raiseFault e s)).toNat = 2 + 4 * e.code.toNat + 16 * s.buflen.toNat) ∧
  ∀ (w : CmdWord) (s t : State), s.phase ≠ .fault → presentWord w s = .next t → t.phase = .fault →
    ∃ e, e ≠ ErrCode.none ∧ t = raiseFault e s

/-- R99: in ACTIVE, ABSORB and FINAL raise COUNTER_OVERFLOW where the block count would not fit, whatever the buffer holds, and
fault nowhere else; BLKCNT is kept. -/
def Obligations.CounterOverflowJustWhereTheCountWouldNotFit : Prop :=
  (∀ (s : State) (b : BitVec 8), s.phase = .active → s.buflen.toNat = 63 → s.blkcnt.toNat = 2 ^ 64 - 1 →
    exec (.absorb b) s = .next (raiseFault .counterOverflow s)) ∧
  (∀ s : State, s.phase = .active → 2 ^ 64 - 1 < s.blkcnt.toNat + (if s.buflen.toNat ≤ 55 then 1 else 2) →
    exec .final s = .next (raiseFault .counterOverflow s)) ∧
  ∀ (i : Instr) (s t : State), s.phase = .active → exec i s = .next t →
    (t.phase = .fault ↔
      (∃ b, i = .absorb b ∧ s.buflen.toNat = 63 ∧ s.blkcnt.toNat = 2 ^ 64 - 1) ∨
      (i = .final ∧ 2 ^ 64 - 1 < s.blkcnt.toNat + (if s.buflen.toNat ≤ 55 then 1 else 2))) ∧
    (t.phase = .fault → t.errcode = .counterOverflow ∧ t.blkcnt = s.blkcnt)

/-- R93: the complete transition relation of PHASE, with the fault code of each entry. -/
def Obligations.PhaseTransitionTable : Prop :=
  ∀ (w : CmdWord) (s t : State), presentWord w s = .next t →
    match s.phase, decode w with
    | _, .ok .reset => t.phase = .active
    | .active, .ok (.absorb _) => t.phase = .active ∨ (t.phase = .fault ∧ t.errcode = .counterOverflow)
    | .active, .ok .final => t.phase = .finalized ∨ (t.phase = .fault ∧ t.errcode = .counterOverflow)
    | .active, .error _ => t.phase = .fault ∧ t.errcode = .illegalCmd
    | .finalized, .ok (.absorb _) => t.phase = .fault ∧ t.errcode = .useAfterFinal
    | .finalized, .ok .final => t.phase = .fault ∧ t.errcode = .useAfterFinal
    | .finalized, .error _ => t.phase = .fault ∧ t.errcode = .illegalCmd
    | .fault, _ => t = s

/-- R22: the codes; ERRCODE is written with a non-zero code only by fault entry, only as the first since reset, and cleared only by
RESET. -/
def Obligations.ErrcodeHoldsTheFirstFault : Prop :=
  (ErrCode.none.code = 0 ∧ ErrCode.useAfterFinal.code = 1 ∧ ErrCode.illegalCmd.code = 2 ∧
    ErrCode.counterOverflow.code = 3) ∧
  ∀ (w : CmdWord) (s t : State), CoreInv s → presentWord w s = .next t →
    (t.errcode = .none ↔ t.phase ≠ .fault) ∧
    (t.errcode ≠ s.errcode →
      (w = 0x0100#16 ∧ t.errcode = .none) ∨ (s.errcode = .none ∧ t = raiseFault t.errcode s))

/-- R19 (with R18): RESET writes 0 to BLKCNT; every other command adds exactly the number of blocks it absorbs into CV, and the
sum never wraps. -/
def Obligations.CounterCountsTheAbsorbedBlocks : Prop :=
  ∀ (i : Instr) (s t : State), exec i s = .next t →
    (i = .reset → t.blkcnt = 0) ∧
    (i ≠ .reset → ∃ blks : List Block,
      t.blkcnt.toNat = s.blkcnt.toNat + blks.length ∧
      ((blks = [] ∧ t.cv = s.cv) ∨
       (∃ b blk, i = .absorb b ∧ blks = [blk] ∧ t.cv = wordsOfBlock (compress (blockOfWords s.cv) blk)) ∨
       (i = .final ∧ t.cv = wordsOfBlock (outputTransform (absorbBlocks (blockOfWords s.cv) blks)))))

/-- R23: DIGEST is written only by FINAL, with bytes 32 to 63 of the output state it leaves in CV; RESET and fault entry make it
invalid; the port shows it just in FINALIZED, and no value elsewhere (U1). -/
def Obligations.DigestIsWrittenOnlyByFinal : Prop :=
  (∀ (w : CmdWord) (s t : State), presentWord w s = .next t →
    (t.digest = s.digest ∨ t.digest = none ∨
      (w = 0x0300#16 ∧ t.phase = .finalized ∧ t.digest = some (digestOf (blockOfWords t.cv)))) ∧
    (w = 0x0300#16 → t.phase = .finalized → t.digest = some (digestOf (blockOfWords t.cv))) ∧
    (w = 0x0100#16 → t.digest = none) ∧
    (s.phase ≠ .fault → t.phase = .fault → t.digest = none)) ∧
  ∀ s : State, (s.phase = .finalized → digestPort s = s.digest) ∧ (s.phase ≠ .finalized → digestPort s = none)

/-- Control and STATUS depend on how many bytes and blocks a core was given and not on their values (R29, R89, R124): two cores
that agree on PHASE, ERRCODE, BLKCNT, BUFLEN and the addresses BUF holds, given ABSORB of any two bytes, or FINAL, go on
agreeing, whatever their CV and bytes are. -/
def Obligations.ControlDoesNotDependOnData : Prop :=
  ∀ (s s' t : State) (i i' : Instr),
    s.phase = s'.phase → s.errcode = s'.errcode → s.blkcnt = s'.blkcnt → s.buflen = s'.buflen →
    s.buf.map Prod.fst = s'.buf.map Prod.fst →
    ((∃ b b', i = .absorb b ∧ i' = .absorb b') ∨ (i = .final ∧ i' = .final)) →
    exec i s = .next t →
    ∃ t', exec i' s' = .next t' ∧ statusOf t' = statusOf t ∧ t'.blkcnt = t.blkcnt ∧
      t'.buf.map Prod.fst = t.buf.map Prod.fst

/-! ### Invariants (10_state.md R32) -/

/-- The invariants and I5 hold at reset. -/
def Obligations.ResetStateMeetsTheInvariants : Prop :=
  CoreInv State.reset ∧ Absorbed [] State.reset ∧ Memory.wf State.reset.buf = true

/-- Every step keeps the invariants I1 to I4 and I6 of R32. -/
def Obligations.EveryStepKeepsTheInvariants : Prop :=
  ∀ s t : State, CoreInv s → step s = .next t → CoreInv t

/-- Every step ends in a next state where the invariants hold: there is no third outcome and no step that stops (R11, R123,
R126). -/
def Obligations.EveryStepEndsInANextState : Prop :=
  ∀ s : State, CoreInv s → ∃ t, step s = .next t

/-- Every step keeps the buffer in its canonical form, in any state. -/
def Obligations.EveryStepKeepsTheBufferCanonical : Prop :=
  ∀ s t : State, Memory.wf s.buf = true → step s = .next t → Memory.wf t.buf = true

/-! ### The permutation core (40_permutation.md) -/

/-- R62: both forms of `xtime`, and its corner cases. -/
def Obligations.XtimeIsTheReducedShift : Prop :=
  (∀ a : Byte, xtime a = (a <<< 1) ^^^ (if a.getLsbD 7 then 0x1B#8 else 0x00#8)) ∧
  xtime 0x00#8 = 0x00#8 ∧ xtime 0x80#8 = 0x1B#8 ∧ xtime 0xFF#8 = 0xE5#8 ∧ xtime 0x57#8 = 0xAE#8 ∧ xtime 0xAE#8 = 0x47#8

/-- R61, R63: the five multiplications as the rule composes them; they are those of GF(2^8) modulo `0x11B`, and each is linear
over XOR. -/
def Obligations.MultiplicationsAreThoseOfTheField : Prop :=
  (∀ a : Byte, mul2 a = xtime a ∧ mul4 a = xtime (xtime a) ∧ mul3 a = mul2 a ^^^ a ∧ mul5 a = mul4 a ^^^ a ∧
    mul7 a = mul4 a ^^^ mul2 a ^^^ a) ∧
  (∀ a : Byte, mul2 a = gfMul 0x02#8 a ∧ mul3 a = gfMul 0x03#8 a ∧ mul4 a = gfMul 0x04#8 a ∧
    mul5 a = gfMul 0x05#8 a ∧ mul7 a = gfMul 0x07#8 a) ∧
  ∀ f ∈ [mul2, mul3, mul4, mul5, mul7], f 0 = 0 ∧ ∀ a b : Byte, f (a ^^^ b) = f a ^^^ f b

/-- R64: the table is the algebraic definition, a bijection, with no fixed point and none under complement. -/
def Obligations.SboxTableIsItsAlgebraicDefinition : Prop :=
  gfInv 0 = 0 ∧ (∀ a : Byte, a ≠ 0 → gfMul a (gfInv a) = 1) ∧
  (∀ a : Byte, sbox a = gfInv a ^^^ (gfInv a).rotateLeft 1 ^^^ (gfInv a).rotateLeft 2 ^^^ (gfInv a).rotateLeft 3
    ^^^ (gfInv a).rotateLeft 4 ^^^ 0x63#8) ∧
  Function.Bijective sbox ∧ ∀ a : Byte, sbox a ≠ a ∧ sbox a ≠ a ^^^ 0xFF#8

/-- R67, R68: the round constants by byte: in P byte `8c` gets `0x10*c + i`; in Q byte `8c + 7` gets `0xFF - (0x10*c + i)` and
every other byte `0xFF`. -/
def Obligations.RoundConstantsByByte : Prop :=
  ∀ (M : Block) (i r c : Nat), i < 10 → r < 8 → c < 8 →
    byteOf (addRoundConstantP M i) (8 * c + r) =
      byteOf M (8 * c + r) ^^^ (if r = 0 then BitVec.ofNat 8 (0x10 * c + i) else 0) ∧
    byteOf (addRoundConstantQ M i) (8 * c + r) =
      byteOf M (8 * c + r) ^^^ (if r = 7 then BitVec.ofNat 8 (0xFF - (0x10 * c + i)) else 0xFF#8)

/-- R69: every cell becomes its S-box image. R70, R71: row `r`, columns 0 to 7 from left to right, is rotated left by
`sigma[r]`. -/
def Obligations.SubBytesAndShiftBytesByRow : Prop :=
  ∀ (M : Block) (r : Nat), r < 8 →
    (List.range 8).map (cellOf (subBytes M) r) = (List.range 8).map (fun c => sbox (cellOf M r c)) ∧
    (List.range 8).map (cellOf (shiftBytesP M) r) = ((List.range 8).map (cellOf M r)).rotate r ∧
    (List.range 8).map (cellOf (shiftBytesQ M) r) =
      ((List.range 8).map (cellOf M r)).rotate ([1, 3, 5, 7, 0, 2, 4, 6].getD r 0)

/-- R72: MixBytes is the product with the circulant matrix over the field, is linear over XOR, and takes a column of eight equal
bytes `a` to eight bytes `mul3(a)`. -/
def Obligations.MixBytesIsTheCirculantProduct : Prop :=
  (∀ (M : Block) (r c : Nat), r < 8 → c < 8 →
    cellOf (mixBytes M) r c =
      (List.range 8).foldl (fun x k => x ^^^ gfMul (mixMatrix r k) (cellOf M k c)) 0) ∧
  (∀ M N : Block, mixBytes (blockXor M N) = blockXor (mixBytes M) (mixBytes N)) ∧
  mixBytes (blockOfBytes fun _ => 0) = (blockOfBytes fun _ => 0) ∧
  ∀ (M : Block) (a : Byte) (c : Nat), c < 8 → (∀ r, r < 8 → cellOf M r c = a) →
    ∀ r, r < 8 → cellOf (mixBytes M) r c = mul3 a

/-- R73, R74, R75: the stages of a round and the ten rounds, in order (a sanity statement). -/
def Obligations.RoundsAndTheirStagesInOrder : Prop :=
  (∀ (M : Block) (i : Nat),
    roundP M i = mixBytes (shiftBytesP (subBytes (addRoundConstantP M i))) ∧
    roundQ M i = mixBytes (shiftBytesQ (subBytes (addRoundConstantQ M i)))) ∧
  ∀ S : Block,
    permP S = roundP (roundP (roundP (roundP (roundP (roundP (roundP (roundP (roundP (roundP S 0) 1) 2) 3) 4) 5) 6) 7) 8) 9 ∧
    permQ S = roundQ (roundQ (roundQ (roundQ (roundQ (roundQ (roundQ (roundQ (roundQ (roundQ S 0) 1) 2) 3) 4) 5) 6) 7) 8) 9

/-- P and Q are bijections on the 64-byte states, and so is each of their stages (R77). Round indices above 9, which no round has,
are the model's choice (log 10). -/
def Obligations.PermutationsAreBijections : Prop :=
  Function.Bijective permP ∧ Function.Bijective permQ ∧
  (∀ i, Function.Bijective fun M => addRoundConstantP M i) ∧ (∀ i, Function.Bijective fun M => addRoundConstantQ M i) ∧
  Function.Bijective subBytes ∧ Function.Bijective shiftBytesP ∧ Function.Bijective shiftBytesQ ∧
  Function.Bijective mixBytes

/-! ### Views, compression, padding, digest (10_state.md R17, 41_compression_output.md) -/

/-- R17: the byte, matrix and word views of a block. -/
def Obligations.ViewsOfABlockAgree : Prop :=
  ∀ (S : Block) (r c : Nat), r < 8 → c < 8 →
    cellOf S r c = byteOf S (8 * c + r) ∧
    (wordOf S c).toNat = ((List.range 8).map fun j => (byteOf S (8 * c + j)).toNat * 2 ^ (8 * j)).sum ∧
    (wordOf S c).extractLsb' (8 * r) 8 = cellOf S r c ∧
    le64 (wordOf S c) = (List.range 8).map fun j => byteOf S (8 * c + j)

/-- R79: the compression function by byte, and the case `h = m`. -/
def Obligations.CompressByByte : Prop :=
  (∀ (h m : Block) (k : Nat), k < 64 →
    byteOf (compress h m) k = byteOf (permP (blockXor h m)) k ^^^ byteOf (permQ m) k ^^^ byteOf h k) ∧
  ∀ m : Block, compress m m = blockXor (blockXor (permP (blockOfBytes fun _ => 0)) (permQ m)) m

/-- R81: the initial value in its three views, and that CV starts with it as it stands. -/
def Obligations.InitialValueInItsViews : Prop :=
  State.reset.cv = wordsOfBlock ivBlock ∧
  (∀ k, k < 64 → byteOf ivBlock k = if k = 62 then 0x01#8 else 0x00#8) ∧
  (∀ r c, r < 8 → c < 8 → cellOf ivBlock r c = if r = 6 ∧ c = 7 then 0x01#8 else 0x00#8) ∧
  (∀ c, c < 7 → wordOf ivBlock c = 0) ∧ wordOf ivBlock 7 = 0x0001000000000000#64

/-- R82: the bytes of the padding blocks, one after another, are the buffered bytes, `0x80`, zeros up to 56 modulo 64, and the
length field; the number of blocks depends on `L` alone. -/
def Obligations.PaddingBlocksByByte : Prop :=
  ∀ (B : ByteString) (N : Nat), B.length ≤ 63 →
    (B.length ≤ 55 → N + 1 < 2 ^ 64 →
      (pad B N).length = 1 ∧
      (pad B N).flatMap (fun blk => blk.toList) =
        B ++ [0x80#8] ++ List.replicate (55 - B.length) 0 ++ be64 (BitVec.ofNat 64 (N + 1))) ∧
    (56 ≤ B.length → N + 2 < 2 ^ 64 →
      (pad B N).length = 2 ∧
      (pad B N).flatMap (fun blk => blk.toList) =
        B ++ [0x80#8] ++ List.replicate (119 - B.length) 0 ++ be64 (BitVec.ofNat 64 (N + 2)))

/-- R83: the length field, bytes 56 to 63 of the last padding block and column 7 of its matrix, is the big-endian total number
of blocks, `floor((n + 8) / 64) + 1` for a message of `n` bytes, and the value FINAL leaves in BLKCNT. -/
def Obligations.LengthFieldCountsBlocks : Prop :=
  ∀ m : ByteString, m.length / 64 + 2 < 2 ^ 64 →
    (m.length % 64 ≤ 55 → (m.length + 8) / 64 + 1 = m.length / 64 + 1) ∧
    (56 ≤ m.length % 64 → (m.length + 8) / 64 + 1 = m.length / 64 + 2) ∧
    ∃ blk, (pad (restBytes m) (m.length / 64)).getLast? = some blk ∧
      (List.range 8).map (fun j => byteOf blk (56 + j)) = be64 (BitVec.ofNat 64 ((m.length + 8) / 64 + 1)) ∧
      (List.range 8).map (fun r => cellOf blk r 7) = be64 (BitVec.ofNat 64 ((m.length + 8) / 64 + 1)) ∧
      ((List.range 8).map fun j => (byteOf blk (56 + j)).toNat * 256 ^ (7 - j)).sum = (m.length + 8) / 64 + 1 ∧
      ∀ s t : State, Absorbed m s → exec .final s = .next t → t.blkcnt.toNat = (m.length + 8) / 64 + 1

/-- R84, R85, R37: the output transform by byte; the digest is bytes 32 to 63, which are the words 4 to 7 in little-endian byte
order. -/
def Obligations.OutputTransformAndDigestByByte : Prop :=
  (∀ (h : Block) (k : Nat), k < 64 → byteOf (outputTransform h) k = byteOf h k ^^^ byteOf (permP h) k) ∧
  ∀ o : Block,
    (digestOf o).toList = (List.range 32).map (fun j => byteOf o (32 + j)) ∧
    (digestOf o).toList = le64 (wordOf o 4) ++ le64 (wordOf o 5) ++ le64 (wordOf o 6) ++ le64 (wordOf o 7)

/-! ### Whole messages (10_state.md R32 I5, 41_compression_output.md R86, 42_commands.md R91, R92) -/

/-- I5 is kept: with the bytes `m` absorbed since reset, ABSORB `b` completes and leaves the bytes `m || b` absorbed, provided the
block count fits. -/
def Obligations.AbsorbExtendsTheMessage : Prop :=
  ∀ (m : ByteString) (b : Byte) (s : State), Absorbed m s → (m.length + 1) / 64 < 2 ^ 64 →
    ∃ t, exec (.absorb b) s = .next t ∧ Absorbed (m ++ [b]) t ∧ t.moves = s.moves

/-- With the bytes `m` absorbed since reset, FINAL completes and presents `Groestl256(m)`; the length field's value is left in
BLKCNT (R83, R86, R90). -/
def Obligations.FinalPresentsGroestl256OfTheMessage : Prop :=
  ∀ (m : ByteString) (s : State), Absorbed m s → m.length / 64 + 2 < 2 ^ 64 →
    ∃ t, exec .final s = .next t ∧ t.phase = .finalized ∧ t.errcode = .none ∧ t.digest = some (groestl256 m) ∧
      t.blkcnt.toNat = (m.length + 8) / 64 + 1 ∧ t.buflen = 0 ∧ t.buf = [] ∧ t.moves = s.moves

/-- R91: UPDATE of two byte strings one after the other is UPDATE of their concatenation, in any state; UPDATE of no bytes is no
command; and after `n` bytes from reset I5 holds of them. -/
def Obligations.UpdateDependsOnTheConcatenation : Prop :=
  (∀ (a b : ByteString) (s : State),
    core.run (a.length + b.length) (presentAll (encodeCommands (updateCommands (a ++ b))) s) =
      match core.run a.length (presentAll (encodeCommands (updateCommands a)) s) with
      | .next u => core.run b.length (presentAll (encodeCommands (updateCommands b)) u)
      | .fault r => .fault r
      | .refused r => .refused r) ∧
  encodeCommands (updateCommands []) = [] ∧
  ∀ m : ByteString, m.length / 64 < 2 ^ 64 →
    ∃ t, core.run m.length (presentAll (encodeCommands (updateCommands m)) State.reset) = .next t ∧ Absorbed m t

/-- R92: HASH `m`, for every message whose block count fits and on a core in any state, ends FINALIZED with `Groestl256(m)` in
DIGEST. -/
def Obligations.HashPresentsGroestl256 : Prop :=
  ∀ (m : ByteString) (s : State), m.length / 64 + 2 < 2 ^ 64 →
    ∃ t, core.run (m.length + 2) (presentAll (encodeCommands (hashCommands m)) s) = .next t ∧
      t.phase = .finalized ∧ t.digest = some (groestl256 m) ∧ t.blkcnt.toNat = (m.length + 8) / 64 + 1 ∧
      t.buflen = 0 ∧ runResult t = .produced (some (groestl256 m))

/-! ### The assembler (30_encoding.md R58 to R60) -/

/-- The line the model writes for a command assembles to that command, for all 258 of them (R58; the form of the line, two
upper-case digits after `0x`, is the model's choice, log 7). -/
def Obligations.CommandLinesAssembleToTheirCommand : Prop :=
  ∀ i : Instr, assembleLine (commandLine i) = .ok [i]

/-- UPDATE and HASH of any bytes, written as `hex:` digits, assemble to their expansions (R59), and the words of HASH are R60's.
The form of the lines is the model's choice (log 7): upper-case digits, and `hex:` with no digits for no bytes. -/
def Obligations.PseudoInstructionsExpand : Prop :=
  ∀ bs : ByteString,
    assembleLine (updateLine bs) = .ok (bs.map .absorb) ∧
    assembleProgram [hashLine bs] = .ok (0x0100#16 :: bs.map (fun b => 0x02#8 ++ b) ++ [0x0300#16])
end

