-- ==== Sys2Proof/Laws/Memory.lean ====
section
/-! SUPPORT. The block buffer: read after write, the canonical form, and what `memRead` can do. -/

namespace Sys2Proof.Machine

@[simp] theorem memByte_nil (a : Nat) : memByte [] a = none := rfl

theorem memByte_cons (a : Nat) (b : Byte) (m : Memory) (addr : Nat) :
    memByte ((a, b) :: m) addr = if a = addr then some b else memByte m addr := rfl

theorem memByte_memWrite_same (m : Memory) (a : BitVec 6) (v : Byte) : memByte (memWrite m a v) a.toNat = some v := by
  induction m with
  | nil => simp [memWrite, memByte_cons]
  | cons p m ih =>
    obtain ⟨x, b⟩ := p
    simp only [memWrite]
    split
    · simp [memByte_cons]
    · split
      · simp [memByte_cons, *]
      · rw [memByte_cons, if_neg (by omega), ih]

theorem memByte_memWrite_other (m : Memory) (a : BitVec 6) (v : Byte) {x : Nat} (hx : x ≠ a.toNat) :
    memByte (memWrite m a v) x = memByte m x := by
  induction m with
  | nil => simp [memWrite, memByte_cons, Ne.symm hx]
  | cons p m ih =>
    obtain ⟨y, b⟩ := p
    simp only [memWrite]
    split
    · rw [memByte_cons, if_neg (Ne.symm hx)]
    · split
      · rw [memByte_cons, memByte_cons, if_neg (by omega), if_neg (by omega)]
      · rw [memByte_cons, memByte_cons, ih]

/-- The canonical form in one line: the addresses rise and stay inside the buffer. -/
theorem wf_iff (m : Memory) :
    Memory.wf m = true ↔ (m.map Prod.fst).Pairwise (· < ·) ∧ ∀ a ∈ m.map Prod.fst, a < 64 := by
  match m with
  | [] => simp [Memory.wf]
  | [(a, b)] => simp [Memory.wf]
  | (a, b) :: (a', b') :: m =>
    have ih := wf_iff ((a', b') :: m)
    simp only [Memory.wf, Bool.and_eq_true, decide_eq_true_eq, ih, List.map_cons, List.pairwise_cons, List.mem_cons]
    constructor
    · rintro ⟨h, ⟨h1, h2⟩, h3⟩
      refine ⟨⟨?_, h1, h2⟩, ?_⟩
      · rintro x (rfl | hx)
        · exact h
        · exact h.trans (h1 x hx)
      · rintro x (rfl | hx)
        · have := h3 a' (.inl rfl)
          omega
        · exact h3 x hx
    · rintro ⟨⟨h0, h1, h2⟩, h3⟩
      exact ⟨h0 a' (.inl rfl), ⟨h1, h2⟩, fun x hx => h3 x (.inr hx)⟩

theorem memWrite_keys_subset (m : Memory) (a : BitVec 6) (v : Byte) {x : Nat} (hx : x ∈ (memWrite m a v).map Prod.fst) :
    x = a.toNat ∨ x ∈ m.map Prod.fst := by
  induction m with
  | nil => simpa [memWrite] using hx
  | cons p m ih =>
    obtain ⟨y, b⟩ := p
    simp only [memWrite] at hx
    split at hx
    · simpa using hx
    · split at hx
      · exact .inr (by simpa using hx)
      · rcases List.mem_cons.mp hx with rfl | hx
        · simp
        · rcases ih hx with h | h
          · exact .inl h
          · exact .inr (List.mem_cons_of_mem _ h)

/-- A write keeps the canonical form. -/
theorem memWrite_wf {m : Memory} (h : Memory.wf m = true) (a : BitVec 6) (v : Byte) : Memory.wf (memWrite m a v) = true := by
  rw [wf_iff] at h ⊢
  refine ⟨?_, fun x hx => ?_⟩
  · obtain ⟨hp, -⟩ := h
    induction m with
    | nil => simp [memWrite]
    | cons p m ih =>
      obtain ⟨y, b⟩ := p
      simp only [List.map_cons, List.pairwise_cons] at hp
      simp only [memWrite]
      split
      · simp only [List.map_cons, List.pairwise_cons, List.mem_cons]
        refine ⟨?_, hp⟩
        rintro x (rfl | hx)
        · assumption
        · have := hp.1 x hx
          omega
      · split
        · simpa using hp
        · simp only [List.map_cons, List.pairwise_cons]
          refine ⟨fun x hx => ?_, ih hp.2⟩
          rcases memWrite_keys_subset m a v hx with rfl | hx
          · omega
          · exact hp.1 x hx
  · rcases memWrite_keys_subset m a v hx with rfl | hx
    · exact a.isLt
    · exact h.2 x hx

/-- The other memories the commands leave: an emptied buffer, and reset's. -/
theorem wf_nil : Memory.wf [] = true := rfl

theorem reset_buf_wf : Memory.wf State.reset.buf = true := rfl

/-- Writing at the end of the addresses 0 to `a - 1` appends. -/
theorem memWrite_append {m : Memory} {a : BitVec 6} (h : ∀ x ∈ m.map Prod.fst, x < a.toNat) (v : Byte) :
    memWrite m a v = m ++ [(a.toNat, v)] := by
  induction m with
  | nil => rfl
  | cons p m ih =>
    obtain ⟨y, b⟩ := p
    have hy : y < a.toNat := h y (by simp)
    rw [memWrite, if_neg (by omega), if_neg (by omega), ih fun x hx => h x (List.mem_cons_of_mem _ hx)]
    rfl

/-- Everything `memRead` can do: it gives `n` bytes, each the byte at its address, or the address of one without a value. -/
theorem memRead_ok {m : Memory} {n : Nat} {bs : ByteString} {addr : Nat} (h : memRead m addr n = .ok bs) :
    bs.length = n ∧ ∀ j, j < n → memByte m (addr + j) = bs[j]? := by
  induction n generalizing addr bs with
  | zero =>
    simp only [memRead, Except.ok.injEq] at h
    subst h
    simp
  | succ n ih =>
    simp only [memRead] at h
    split at h
    · cases h
    · rename_i b hb
      split at h
      · rename_i bs' hbs
        cases h
        obtain ⟨hl, hj⟩ := ih hbs
        refine ⟨by simp [hl], fun j hj' => ?_⟩
        rcases j with _ | j
        · simpa using hb
        · have := hj j (by omega)
          simpa [Nat.add_assoc, Nat.add_comm 1 j] using this
      · cases h

theorem memRead_error {m : Memory} {n addr a : Nat} (h : memRead m addr n = .error a) :
    addr ≤ a ∧ a < addr + n ∧ memByte m a = none := by
  induction n generalizing addr with
  | zero => cases h
  | succ n ih =>
    simp only [memRead] at h
    split at h
    · rename_i hb
      cases h
      exact ⟨le_rfl, by omega, hb⟩
    · split at h
      · cases h
      · rename_i hr
        cases h
        obtain ⟨h1, h2, h3⟩ := ih hr
        exact ⟨by omega, by omega, h3⟩

/-- Reading a buffer that holds just the addresses `addr` to `addr + n - 1` gives its bytes. -/
theorem memRead_range {m : Memory} {addr n : Nat} (h : m.map Prod.fst = List.range' addr n) :
    memRead m addr n = .ok (m.map Prod.snd) := by
  induction n generalizing m addr with
  | zero =>
    have : m = [] := by simpa using h
    subst this
    rfl
  | succ n ih =>
    rcases m with _ | ⟨⟨a, b⟩, m⟩
    · simp at h
    · simp only [List.map_cons, List.range'_succ, List.cons.injEq] at h
      obtain ⟨rfl, h⟩ := h
      have hother : ∀ k j, a < j → memRead ((a, b) :: m) j k = memRead m j k := by
        intro k
        induction k with
        | zero => intros; rfl
        | succ k ihk =>
          intro j hj
          simp only [memRead, memByte_cons, if_neg (show ¬ a = j by omega), ihk (j + 1) (by omega)]
      simp [memRead, memByte_cons, hother n (a + 1) (by omega), ih h]

/-- Cells listed after others show only where those have none. -/
theorem memByte_append (m n : Memory) (a : Nat) : memByte (m ++ n) a = (memByte m a).or (memByte n a) := by
  induction m with
  | nil => simp
  | cons p m ih =>
    obtain ⟨x, b⟩ := p
    simp only [List.cons_append, memByte_cons]
    split <;> simp [ih]

/-- An address has a value exactly where it is listed. -/
theorem memByte_isSome_iff (m : Memory) (a : Nat) : (memByte m a).isSome = true ↔ a ∈ m.map Prod.fst := by
  induction m with
  | nil => simp
  | cons p m ih =>
    obtain ⟨x, b⟩ := p
    rw [memByte_cons]
    split
    · simp_all
    · simp_all [Ne.symm ‹_›]

/-- A read depends on the bytes at its own addresses only. -/
theorem memRead_congr {m m' : Memory} {n addr : Nat}
    (h : ∀ x, addr ≤ x → x < addr + n → memByte m x = memByte m' x) : memRead m addr n = memRead m' addr n := by
  induction n generalizing addr with
  | zero => rfl
  | succ n ih =>
    simp only [memRead]
    rw [h addr (by omega) (by omega), ih fun x h1 h2 => h x (by omega) (by omega)]

end Sys2Proof.Machine
end

