-- ==== Sys2Proof/Laws/PerInstr.lean ====
section
/-! SUPPORT. Statements about every instruction as it is written, one lemma per constructor. -/

namespace Sys2Proof.Laws.EncodingFields

/-- The word of an instruction has the fields of the opcode map, and they are those of a command word (30_encoding.md R54,
R56). -/
def Statement (i : Instr) : Prop :=
  formatOf (encode i) = formatOfInstr i ∧ (formatOfInstr i).wf = true

theorem fields_of_append (a b : BitVec 8) : formatOf (a ++ b) = { opc := a, imm8 := b } := by
  have h1 : (a ++ b).extractLsb' 8 8 = a := by
    apply BitVec.eq_of_getLsbD_eq
    intro i hi
    simp only [BitVec.getLsbD_extractLsb', BitVec.getLsbD_append, hi, decide_true, Bool.true_and]
    rw [if_neg (by omega)]
    exact congrArg _ (by omega)
  have h2 : (a ++ b).extractLsb' 0 8 = b := by
    apply BitVec.eq_of_getLsbD_eq
    intro i hi
    simp only [BitVec.getLsbD_extractLsb', BitVec.getLsbD_append, hi, decide_true, Bool.true_and]
    rw [if_pos (by omega)]
    exact congrArg _ (by omega)
  simp [formatOf, h1, h2]

theorem reset : Statement .reset := ⟨fields_of_append _ _, rfl⟩

theorem absorb (imm8 : BitVec 8) : Statement (.absorb imm8) :=
  ⟨fields_of_append _ _, by simp [formatOfInstr, FormatC.wf, FormatC.opcodeDefined, FormatC.immAllowed]⟩

theorem final : Statement .final := ⟨fields_of_append _ _, rfl⟩

end Sys2Proof.Laws.EncodingFields
end

