-- ==== Sys2Proof/Laws/State.lean ====
section
/-! SUPPORT. One lemma per field per update, so that no later proof unfolds a record update. -/

namespace Sys2Proof.Machine

@[simp] theorem raiseFault_cv (e : ErrCode) (s : State) : (raiseFault e s).cv = s.cv := rfl
@[simp] theorem raiseFault_blkcnt (e : ErrCode) (s : State) : (raiseFault e s).blkcnt = s.blkcnt := rfl
@[simp] theorem raiseFault_buf (e : ErrCode) (s : State) : (raiseFault e s).buf = s.buf := rfl
@[simp] theorem raiseFault_buflen (e : ErrCode) (s : State) : (raiseFault e s).buflen = s.buflen := rfl
@[simp] theorem raiseFault_phase (e : ErrCode) (s : State) : (raiseFault e s).phase = .fault := rfl
@[simp] theorem raiseFault_errcode (e : ErrCode) (s : State) : (raiseFault e s).errcode = e := rfl
@[simp] theorem raiseFault_digest (e : ErrCode) (s : State) : (raiseFault e s).digest = none := rfl
@[simp] theorem raiseFault_moves (e : ErrCode) (s : State) : (raiseFault e s).moves = s.moves := rfl
@[simp] theorem raiseFault_reply (e : ErrCode) (s : State) : (raiseFault e s).reply = s.reply := rfl

@[simp] theorem resetCore_cv (s : State) : (resetCore s).cv = State.reset.cv := rfl
@[simp] theorem resetCore_blkcnt (s : State) : (resetCore s).blkcnt = 0 := rfl
@[simp] theorem resetCore_buf (s : State) : (resetCore s).buf = [] := rfl
@[simp] theorem resetCore_buflen (s : State) : (resetCore s).buflen = 0 := rfl
@[simp] theorem resetCore_phase (s : State) : (resetCore s).phase = .active := rfl
@[simp] theorem resetCore_errcode (s : State) : (resetCore s).errcode = .none := rfl
@[simp] theorem resetCore_digest (s : State) : (resetCore s).digest = none := rfl
@[simp] theorem resetCore_moves (s : State) : (resetCore s).moves = s.moves := rfl
@[simp] theorem resetCore_reply (s : State) : (resetCore s).reply = s.reply := rfl

@[simp] theorem bufferByte_cv (b : Byte) (s : State) : (bufferByte b s).cv = s.cv := rfl
@[simp] theorem bufferByte_blkcnt (b : Byte) (s : State) : (bufferByte b s).blkcnt = s.blkcnt := rfl
@[simp] theorem bufferByte_buf (b : Byte) (s : State) : (bufferByte b s).buf = memWrite s.buf s.buflen b := rfl
@[simp] theorem bufferByte_buflen (b : Byte) (s : State) : (bufferByte b s).buflen = s.buflen + 1 := rfl
@[simp] theorem bufferByte_phase (b : Byte) (s : State) : (bufferByte b s).phase = s.phase := rfl
@[simp] theorem bufferByte_errcode (b : Byte) (s : State) : (bufferByte b s).errcode = s.errcode := rfl
@[simp] theorem bufferByte_digest (b : Byte) (s : State) : (bufferByte b s).digest = s.digest := rfl
@[simp] theorem bufferByte_moves (b : Byte) (s : State) : (bufferByte b s).moves = s.moves := rfl
@[simp] theorem bufferByte_reply (b : Byte) (s : State) : (bufferByte b s).reply = s.reply := rfl

@[simp] theorem absorbFullBlock_cv (blk : Block) (s : State) : (absorbFullBlock blk s).cv = wordsOfBlock (compress (cvBlock s) blk) := rfl
@[simp] theorem absorbFullBlock_blkcnt (blk : Block) (s : State) : (absorbFullBlock blk s).blkcnt = s.blkcnt + 1 := rfl
@[simp] theorem absorbFullBlock_buf (blk : Block) (s : State) : (absorbFullBlock blk s).buf = [] := rfl
@[simp] theorem absorbFullBlock_buflen (blk : Block) (s : State) : (absorbFullBlock blk s).buflen = 0 := rfl
@[simp] theorem absorbFullBlock_phase (blk : Block) (s : State) : (absorbFullBlock blk s).phase = s.phase := rfl
@[simp] theorem absorbFullBlock_errcode (blk : Block) (s : State) : (absorbFullBlock blk s).errcode = s.errcode := rfl
@[simp] theorem absorbFullBlock_digest (blk : Block) (s : State) : (absorbFullBlock blk s).digest = s.digest := rfl
@[simp] theorem absorbFullBlock_moves (blk : Block) (s : State) : (absorbFullBlock blk s).moves = s.moves := rfl
@[simp] theorem absorbFullBlock_reply (blk : Block) (s : State) : (absorbFullBlock blk s).reply = s.reply := rfl

@[simp] theorem finalizeWith_cv (o : Block) (k : Nat) (s : State) : (finalizeWith o k s).cv = wordsOfBlock o := rfl
@[simp] theorem finalizeWith_blkcnt (o : Block) (k : Nat) (s : State) : (finalizeWith o k s).blkcnt = BitVec.ofNat 64 (s.blkcnt.toNat + k) := rfl
@[simp] theorem finalizeWith_buf (o : Block) (k : Nat) (s : State) : (finalizeWith o k s).buf = [] := rfl
@[simp] theorem finalizeWith_buflen (o : Block) (k : Nat) (s : State) : (finalizeWith o k s).buflen = 0 := rfl
@[simp] theorem finalizeWith_phase (o : Block) (k : Nat) (s : State) : (finalizeWith o k s).phase = .finalized := rfl
@[simp] theorem finalizeWith_errcode (o : Block) (k : Nat) (s : State) : (finalizeWith o k s).errcode = s.errcode := rfl
@[simp] theorem finalizeWith_digest (o : Block) (k : Nat) (s : State) : (finalizeWith o k s).digest = some (digestOf o) := rfl
@[simp] theorem finalizeWith_moves (o : Block) (k : Nat) (s : State) : (finalizeWith o k s).moves = s.moves := rfl
@[simp] theorem finalizeWith_reply (o : Block) (k : Nat) (s : State) : (finalizeWith o k s).reply = s.reply := rfl

@[simp] theorem readStatusPort_cv (s : State) : (readStatusPort s).cv = s.cv := rfl
@[simp] theorem readStatusPort_blkcnt (s : State) : (readStatusPort s).blkcnt = s.blkcnt := rfl
@[simp] theorem readStatusPort_buf (s : State) : (readStatusPort s).buf = s.buf := rfl
@[simp] theorem readStatusPort_buflen (s : State) : (readStatusPort s).buflen = s.buflen := rfl
@[simp] theorem readStatusPort_phase (s : State) : (readStatusPort s).phase = s.phase := rfl
@[simp] theorem readStatusPort_errcode (s : State) : (readStatusPort s).errcode = s.errcode := rfl
@[simp] theorem readStatusPort_digest (s : State) : (readStatusPort s).digest = s.digest := rfl
@[simp] theorem readStatusPort_moves (s : State) : (readStatusPort s).moves = s.moves := rfl
@[simp] theorem readStatusPort_reply (s : State) : (readStatusPort s).reply = .status (statusOf s) := rfl

@[simp] theorem readDigestPort_cv (s : State) : (readDigestPort s).cv = s.cv := rfl
@[simp] theorem readDigestPort_blkcnt (s : State) : (readDigestPort s).blkcnt = s.blkcnt := rfl
@[simp] theorem readDigestPort_buf (s : State) : (readDigestPort s).buf = s.buf := rfl
@[simp] theorem readDigestPort_buflen (s : State) : (readDigestPort s).buflen = s.buflen := rfl
@[simp] theorem readDigestPort_phase (s : State) : (readDigestPort s).phase = s.phase := rfl
@[simp] theorem readDigestPort_errcode (s : State) : (readDigestPort s).errcode = s.errcode := rfl
@[simp] theorem readDigestPort_digest (s : State) : (readDigestPort s).digest = s.digest := rfl
@[simp] theorem readDigestPort_moves (s : State) : (readDigestPort s).moves = s.moves := rfl
@[simp] theorem readDigestPort_reply (s : State) : (readDigestPort s).reply = .digest (digestPort s) := rfl

@[simp] theorem takeMove_cv (rest : List HostMove) (s : State) : (takeMove rest s).cv = s.cv := rfl
@[simp] theorem takeMove_blkcnt (rest : List HostMove) (s : State) : (takeMove rest s).blkcnt = s.blkcnt := rfl
@[simp] theorem takeMove_buf (rest : List HostMove) (s : State) : (takeMove rest s).buf = s.buf := rfl
@[simp] theorem takeMove_buflen (rest : List HostMove) (s : State) : (takeMove rest s).buflen = s.buflen := rfl
@[simp] theorem takeMove_phase (rest : List HostMove) (s : State) : (takeMove rest s).phase = s.phase := rfl
@[simp] theorem takeMove_errcode (rest : List HostMove) (s : State) : (takeMove rest s).errcode = s.errcode := rfl
@[simp] theorem takeMove_digest (rest : List HostMove) (s : State) : (takeMove rest s).digest = s.digest := rfl
@[simp] theorem takeMove_moves (rest : List HostMove) (s : State) : (takeMove rest s).moves = rest := rfl
@[simp] theorem takeMove_reply (rest : List HostMove) (s : State) : (takeMove rest s).reply = .nothing := rfl

@[simp] theorem presentNext_cv (w : CmdWord) (s : State) : (presentNext w s).cv = s.cv := rfl
@[simp] theorem presentNext_blkcnt (w : CmdWord) (s : State) : (presentNext w s).blkcnt = s.blkcnt := rfl
@[simp] theorem presentNext_buf (w : CmdWord) (s : State) : (presentNext w s).buf = s.buf := rfl
@[simp] theorem presentNext_buflen (w : CmdWord) (s : State) : (presentNext w s).buflen = s.buflen := rfl
@[simp] theorem presentNext_phase (w : CmdWord) (s : State) : (presentNext w s).phase = s.phase := rfl
@[simp] theorem presentNext_errcode (w : CmdWord) (s : State) : (presentNext w s).errcode = s.errcode := rfl
@[simp] theorem presentNext_digest (w : CmdWord) (s : State) : (presentNext w s).digest = s.digest := rfl
@[simp] theorem presentNext_moves (w : CmdWord) (s : State) : (presentNext w s).moves = .present w :: s.moves := rfl
@[simp] theorem presentNext_reply (w : CmdWord) (s : State) : (presentNext w s).reply = s.reply := rfl

@[simp] theorem presentAll_cv (ws : List CmdWord) (s : State) : (presentAll ws s).cv = s.cv := rfl
@[simp] theorem presentAll_blkcnt (ws : List CmdWord) (s : State) : (presentAll ws s).blkcnt = s.blkcnt := rfl
@[simp] theorem presentAll_buf (ws : List CmdWord) (s : State) : (presentAll ws s).buf = s.buf := rfl
@[simp] theorem presentAll_buflen (ws : List CmdWord) (s : State) : (presentAll ws s).buflen = s.buflen := rfl
@[simp] theorem presentAll_phase (ws : List CmdWord) (s : State) : (presentAll ws s).phase = s.phase := rfl
@[simp] theorem presentAll_errcode (ws : List CmdWord) (s : State) : (presentAll ws s).errcode = s.errcode := rfl
@[simp] theorem presentAll_digest (ws : List CmdWord) (s : State) : (presentAll ws s).digest = s.digest := rfl
@[simp] theorem presentAll_moves (ws : List CmdWord) (s : State) : (presentAll ws s).moves = ws.map .present := rfl
@[simp] theorem presentAll_reply (ws : List CmdWord) (s : State) : (presentAll ws s).reply = s.reply := rfl

@[simp] theorem reset_blkcnt : State.reset.blkcnt = 0 := rfl
@[simp] theorem reset_buf : State.reset.buf = [] := rfl
@[simp] theorem reset_buflen : State.reset.buflen = 0 := rfl
@[simp] theorem reset_phase : State.reset.phase = .active := rfl
@[simp] theorem reset_errcode : State.reset.errcode = .none := rfl
@[simp] theorem reset_digest : State.reset.digest = none := rfl
@[simp] theorem reset_moves : State.reset.moves = [] := rfl
@[simp] theorem reset_reply : State.reset.reply = .nothing := rfl

end Sys2Proof.Machine
end

