-- ==== Sys2Proof/Laws/Steps.lean ====
section
/-! SUPPORT. What a step can do, said once: for each shared operation and each meaning, the cases in which it answers a next
state, and the few in which it stops. -/

namespace Sys2Proof.Machine

variable {s t : State}

@[simp] theorem messageByte_eq (b : BitVec 8) : messageByte b = b := by
  simp [messageByte]

theorem inActivePhase_active {body : State → Result} (h : s.phase = .active) : inActivePhase body s = body s := by
  simp [inActivePhase, h]

theorem inActivePhase_finalized {body : State → Result} (h : s.phase = .finalized) :
    inActivePhase body s = .next (raiseFault .useAfterFinal s) := by
  simp [inActivePhase, h]

theorem inActivePhase_fault {body : State → Result} (h : s.phase = .fault) : inActivePhase body s = .next s := by
  simp [inActivePhase, h]

theorem illegalWord_of_fault (h : s.phase = .fault) : illegalWord s = s := by
  simp [illegalWord, h]

theorem illegalWord_of_not_fault (h : s.phase ≠ .fault) : illegalWord s = raiseFault .illegalCmd s := by
  unfold illegalWord
  split <;> simp_all

theorem inActivePhase_next {body : State → Result} (h : inActivePhase body s = .next t) :
    (s.phase = .fault ∧ t = s) ∨ (s.phase = .finalized ∧ t = raiseFault .useAfterFinal s) ∨
      (s.phase = .active ∧ body s = .next t) := by
  rcases hp : s.phase with _ | _ | _
  · rw [inActivePhase_active hp] at h
    exact .inr (.inr ⟨rfl, h⟩)
  · rw [inActivePhase_finalized hp] at h
    cases h
    exact .inr (.inl ⟨rfl, rfl⟩)
  · rw [inActivePhase_fault hp] at h
    cases h
    exact .inl ⟨rfl, rfl⟩

theorem counterOverflows_iff (k : Nat) : counterOverflows s k = true ↔ Config.cntMax < s.blkcnt.toNat + k := by
  simp [counterOverflows]

theorem absorbActive_next {b : Byte} (h : absorbActive b s = .next t) :
    (s.buflen.toNat < 63 ∧ t = bufferByte b s) ∨
      (s.buflen.toNat = 63 ∧ counterOverflows s 1 = true ∧ t = raiseFault .counterOverflow s) ∨
      (s.buflen.toNat = 63 ∧ counterOverflows s 1 = false ∧ ∃ blk,
        memRead (memWrite s.buf 63#6 b) 0 64 = .ok blk ∧ t = absorbFullBlock (blockOfString blk) s) := by
  have hlt := s.buflen.isLt
  unfold absorbActive at h
  split at h
  · rename_i h63
    cases h
    exact .inl ⟨h63, rfl⟩
  · rename_i h63
    have h63 : s.buflen.toNat = 63 := by
      simp only [Config.bufMax] at h63
      omega
    split at h
    · rename_i ho
      cases h
      exact .inr (.inl ⟨h63, ho, rfl⟩)
    · rename_i ho
      split at h
      · rename_i blk hr
        cases h
        exact .inr (.inr ⟨h63, Bool.eq_false_iff.mpr ho, blk, hr, rfl⟩)
      · cases h

theorem finalActive_next (h : finalActive s = .next t) :
    (counterOverflows s (padBlockCount s.buflen.toNat) = true ∧ t = raiseFault .counterOverflow s) ∨
      (counterOverflows s (padBlockCount s.buflen.toNat) = false ∧ ∃ B,
        memRead s.buf 0 s.buflen.toNat = .ok B ∧
          t = finalizeWith (finalOutput B s) (padBlockCount s.buflen.toNat) s) := by
  unfold finalActive at h
  split at h
  · rename_i ho
    cases h
    exact .inl ⟨ho, rfl⟩
  · rename_i ho
    split at h
    · rename_i B hr
      cases h
      exact .inr ⟨Bool.eq_false_iff.mpr ho, B, hr, rfl⟩
    · cases h

/-- The cases in which ABSORB answers a next state. -/
theorem execAbsorb_next {imm8 : BitVec 8} (h : execAbsorb imm8 s = .next t) :
    (s.phase = .fault ∧ t = s) ∨ (s.phase = .finalized ∧ t = raiseFault .useAfterFinal s) ∨
      (s.phase = .active ∧ absorbActive imm8 s = .next t) := by
  simpa using inActivePhase_next h

/-- The cases in which FINAL answers a next state. -/
theorem execFinal_next (h : execFinal s = .next t) :
    (s.phase = .fault ∧ t = s) ∨ (s.phase = .finalized ∧ t = raiseFault .useAfterFinal s) ∨
      (s.phase = .active ∧ finalActive s = .next t) :=
  inActivePhase_next h

/-- The cases of a step. -/
theorem step_next (h : step s = .next t) :
    (s.moves = [] ∧ t = s) ∨ ∃ mv rest, s.moves = mv :: rest ∧ hostMove mv (takeMove rest s) = .next t := by
  unfold step at h
  split at h
  · cases h
    exact .inl ⟨‹_›, rfl⟩
  · exact .inr ⟨_, _, ‹_›, h⟩

/-- The cases of a presented word. -/
theorem presentWord_next {w : CmdWord} (h : presentWord w s = .next t) :
    (∃ i, decode w = .ok i ∧ exec i s = .next t) ∨ ∃ r, decode w = .error r ∧ t = illegalWord s := by
  unfold presentWord at h
  split at h
  · exact .inl ⟨_, ‹_›, h⟩
  · cases h
    exact .inr ⟨_, ‹_›, rfl⟩

/-- The host's side of the state does not enter a command: the meaning commutes with replacing it. -/
theorem exec_withHost (i : Instr) (s : State) (ms : List HostMove) (r : Reply) :
    exec i { s with moves := ms, reply := r } =
      match exec i s with
      | .next t => .next { t with moves := ms, reply := r }
      | .fault e => .fault e
      | .refused e => .refused e := by
  obtain ⟨cv, blkcnt, buf, buflen, phase, errcode, digest, moves, reply⟩ := s
  cases i with
  | reset => rfl
  | absorb b =>
    cases phase with
    | active =>
      have ho : counterOverflows ⟨cv, blkcnt, buf, buflen, .active, errcode, digest, ms, r⟩ 1 =
          counterOverflows ⟨cv, blkcnt, buf, buflen, .active, errcode, digest, moves, reply⟩ 1 := rfl
      simp only [exec, execAbsorb, inActivePhase, absorbActive, ho]
      by_cases h : buflen.toNat < Config.bufMax
      · simp only [if_pos h]
        rfl
      · simp only [if_neg h]
        generalize counterOverflows ⟨cv, blkcnt, buf, buflen, .active, errcode, digest, moves, reply⟩ 1 = q
        cases memRead (memWrite buf 63#6 (messageByte b)) 0 Config.blockBytes <;> cases q <;> rfl
    | finalized => rfl
    | fault => rfl
  | final =>
    cases phase with
    | active =>
      have ho : ∀ k, counterOverflows ⟨cv, blkcnt, buf, buflen, .active, errcode, digest, ms, r⟩ k =
          counterOverflows ⟨cv, blkcnt, buf, buflen, .active, errcode, digest, moves, reply⟩ k := fun _ => rfl
      simp only [exec, execFinal, inActivePhase, finalActive, ho]
      generalize counterOverflows ⟨cv, blkcnt, buf, buflen, .active, errcode, digest, moves, reply⟩ _ = q
      cases memRead buf 0 buflen.toNat <;> cases q <;> rfl
    | finalized => rfl
    | fault => rfl

end Sys2Proof.Machine
end

