-- ==== Sys2Proof/Laws/Views.lean ====
section
/-! SUPPORT. The views of a block: reading back a byte or cell of a block built byte by byte or cell by cell, equality of
blocks by bytes, and words to block and back (10_state.md R17). -/

namespace Sys2Proof.Machine

theorem byteOf_eq_getElem (S : Block) {k : Nat} (hk : k < 64) : byteOf S k = S[k] := by
  simp [byteOf, hk]

@[simp] theorem byteOf_blockOfBytes (f : Nat → Byte) {k : Nat} (hk : k < 64) : byteOf (blockOfBytes f) k = f k := by
  simp [byteOf, blockOfBytes, hk]

@[simp] theorem cellOf_blockOfCells (f : Nat → Nat → Byte) {r c : Nat} (hr : r < 8) (hc : c < 8) :
    cellOf (blockOfCells f) r c = f r c := by
  have hk : 8 * c + r < 64 := by omega
  have h1 : (8 * c + r) % 8 = r := by omega
  have h2 : (8 * c + r) / 8 = c := by omega
  simp [cellOf, blockOfCells, hk, h1, h2]

theorem block_ext_bytes {S T : Block} (h : ∀ k, k < 64 → byteOf S k = byteOf T k) : S = T := by
  ext1 k hk
  have := h k hk
  rwa [byteOf_eq_getElem S hk, byteOf_eq_getElem T hk] at this

theorem byteOf_eq_cellOf (S : Block) (k : Nat) : byteOf S k = cellOf S (k % 8) (k / 8) := by
  have : 8 * (k / 8) + k % 8 = k := by omega
  rw [cellOf, this]

theorem block_ext_cells {S T : Block} (h : ∀ r c, r < 8 → c < 8 → cellOf S r c = cellOf T r c) : S = T :=
  block_ext_bytes fun k hk => by
    rw [byteOf_eq_cellOf, byteOf_eq_cellOf T]
    exact h _ _ (by omega) (by omega)

@[simp] theorem byteOf_blockXor (a b : Block) {k : Nat} (hk : k < 64) :
    byteOf (blockXor a b) k = byteOf a k ^^^ byteOf b k := by
  simp [blockXor, hk]

@[simp] theorem cellOf_blockXor (a b : Block) {r c : Nat} (hr : r < 8) (hc : c < 8) :
    cellOf (blockXor a b) r c = cellOf a r c ^^^ cellOf b r c :=
  byteOf_blockXor a b (by omega)

/-- Row `r` of a word is the cell in row `r` of that column (R17). -/
theorem wordOf_extract (S : Block) (c : Nat) {r : Nat} (hr : r < 8) :
    (wordOf S c).extractLsb' (8 * r) 8 = cellOf S r c := by
  have h : ∀ b7 b6 b5 b4 b3 b2 b1 b0 : Byte,
      (b7 ++ b6 ++ b5 ++ b4 ++ b3 ++ b2 ++ b1 ++ b0 : BitVec 64).extractLsb' (8 * r) 8
        = [b0, b1, b2, b3, b4, b5, b6, b7].getD r 0 := by
    intro b7 b6 b5 b4 b3 b2 b1 b0
    apply BitVec.eq_of_getLsbD_eq
    intro i hi
    have hcases : r = 0 ∨ r = 1 ∨ r = 2 ∨ r = 3 ∨ r = 4 ∨ r = 5 ∨ r = 6 ∨ r = 7 := by omega
    rcases hcases with rfl | rfl | rfl | rfl | rfl | rfl | rfl | rfl <;>
      (simp only [BitVec.getLsbD_extractLsb', BitVec.getLsbD_append, hi, decide_true, Bool.true_and]
       repeat rw [if_neg (by omega)]
       try rw [if_pos (by omega)]
       exact congrArg _ (by omega))
  rw [wordOf, h]
  rcases r with _ | _ | _ | _ | _ | _ | _ | _ | r <;> first | rfl | omega

@[simp] theorem blockOfWords_wordsOfBlock (S : Block) : blockOfWords (wordsOfBlock S) = S := by
  refine block_ext_cells fun r c hr hc => ?_
  rw [blockOfWords, cellOf_blockOfCells _ hr hc, ← wordOf_extract S c hr]
  rcases c with _ | _ | _ | _ | _ | _ | _ | _ | c <;> first | rfl | omega

end Sys2Proof.Machine
end

