-- ==== Sys2Proof/Tests/Slice0.lean ====
section
/-! SUPPORT. Tests, their expected values being those of the rules and of the vectors V1 to V25 of spec/95_test_vectors.md; and
for each statement with hypotheses a state and operands that meet them (`witness_…`). -/

namespace Sys2Proof.Tests

open Sys2Proof.Machine

/-! ### Helpers -/

/-- `seq(n)` of 95_test_vectors.md: byte `j` is `j mod 256`. -/
def seqBytes (n : Nat) : ByteString :=
  (List.range n).map (BitVec.ofNat 8)

/-- Cells 0, 1, 2, … of a buffer holding these bytes. -/
def cellsOf (bs : ByteString) : Memory :=
  (List.range bs.length).map fun k => (k, bs.getD k 0)

/-- A core with the IV in CV, in a phase, with a block count and buffered bytes. -/
def coreAt (p : Phase) (e : ErrCode) (N : Nat) (bs : ByteString) : State :=
  { State.reset with
    phase := p, errcode := e, blkcnt := BitVec.ofNat 64 N, buf := cellsOf bs, buflen := BitVec.ofNat 6 bs.length }

/-- ACTIVE, with `N` blocks counted and `seq(n)` buffered. -/
def activeAt (N n : Nat) : State :=
  coreAt .active .none N (seqBytes n)

/-- FINALIZED, with one block counted and some digest. -/
def finalizedCore : State :=
  { coreAt .finalized .none 1 [] with digest := some (digestOf ivBlock) }

/-- FAULT after an illegal word, with three bytes buffered (V24). -/
def faultCore : State :=
  coreAt .fault .illegalCmd 0 [0x01#8, 0x02#8, 0x03#8]

/-- The core that holds the message bytes `m`, as I5 of R32 describes it. -/
def holding (m : ByteString) : State :=
  { State.reset with
    cv := wordsOfBlock (absorbBlocks ivBlock (fullBlocks m))
    blkcnt := BitVec.ofNat 64 (m.length / 64)
    buf := cellsOf (restBytes m)
    buflen := BitVec.ofNat 6 (m.length % 64) }

/-- The bytes of a number of `n` bytes, the most significant first: for writing out the vectors. -/
def bytesOf (n v : Nat) : ByteString :=
  (List.range n).map fun j => BitVec.ofNat 8 (v / 2 ^ (8 * (n - 1 - j)))

/-- A run's state where it answers one. -/
def nextOf : Result → Option State
  | .next t => some t
  | .fault _ => none
  | .refused _ => none

def isNext (r : Result) : Bool :=
  (nextOf r).isSome

theorem isNext_iff {r : Result} : isNext r = true ↔ ∃ t, r = .next t := by
  cases r <;> simp [isNext, nextOf]

/-- A property of the next state, false where there is none. -/
def nextHas (r : Result) (p : State → Bool) : Bool :=
  (nextOf r).any p

theorem nextHas_iff {r : Result} {p : State → Bool} : nextHas r p = true ↔ ∃ t, r = .next t ∧ p t = true := by
  cases r <;> simp [nextHas, nextOf]

def statusAfter (r : Result) : Option (BitVec 16) :=
  (nextOf r).map statusOf

theorem cellsOf_fst (bs : ByteString) : (cellsOf bs).map Prod.fst = List.range bs.length := by
  simp [cellsOf, Function.comp_def]

theorem cellsOf_snd (bs : ByteString) : (cellsOf bs).map Prod.snd = bs := by
  apply List.ext_getElem
  · simp [cellsOf]
  · intro k h1 h2
    simp [cellsOf, h2]

/-- `holding m` meets I5 for every message whose blocks can be counted. -/
theorem holding_absorbed (m : ByteString) (h : m.length / 64 < 2 ^ 64) : Absorbed m (holding m) := by
  have hr : (restBytes m).length = m.length % 64 := by
    simp only [restBytes, List.length_drop]
    omega
  have hn : (BitVec.ofNat 6 (m.length % 64)).toNat = m.length % 64 := by
    rw [BitVec.toNat_ofNat]
    omega
  have hk : (BitVec.ofNat 64 (m.length / 64)).toNat = m.length / 64 := by
    rw [BitVec.toNat_ofNat]
    omega
  refine ⟨rfl, rfl, ?_, rfl, ?_, cellsOf_snd _⟩
  · simp only [holding, hn, hk]
    omega
  · simp only [BufferCoherent, holding, hn, cellsOf_fst, hr]

/-! ### Well-formedness: each check, and an ill-formed term it refuses -/

theorem test_opcode_zero_refused : (FormatC.mk 0x00 0x61).opcodeDefined = false ∧ (FormatC.mk 0x00 0x61).wf = false := by
  decide

theorem test_opcode_four_refused : (FormatC.mk 0x04 0x00).opcodeDefined = false ∧ (FormatC.mk 0x04 0x00).wf = false := by
  decide

theorem test_reset_with_operand_refused : (FormatC.mk 0x01 0x01).immAllowed = false ∧ (FormatC.mk 0x01 0x01).wf = false := by
  decide

theorem test_final_with_operand_refused : (FormatC.mk 0x03 0xFF).immAllowed = false ∧ (FormatC.mk 0x03 0xFF).wf = false := by
  decide

theorem test_commands_well_formed :
    (FormatC.mk 0x01 0x00).wf = true ∧ (FormatC.mk 0x02 0xFF).wf = true ∧ (FormatC.mk 0x03 0x00).wf = true := by
  decide

/-! ### Decoding: V21, V22, each word's bits written out -/

theorem test_decode_reset : decode 0b0000000100000000#16 = .ok .reset ∧ encode .reset = 0x0100#16 := by
  decide

theorem test_decode_absorb :
    decode 0b0000001001100001#16 = .ok (.absorb 0b01100001#8) ∧ decode 0b0000001010000000#16 = .ok (.absorb 0x80#8) ∧
      encode (.absorb 0x61#8) = 0x0261#16 := by
  decide

theorem test_decode_final : decode 0b0000001100000000#16 = .ok .final ∧ encode .final = 0x0300#16 := by
  decide

theorem test_decode_illegal :
    decode 0x0000#16 = .error (.opcodeUndefined 0x00) ∧ decode 0x00FF#16 = .error (.opcodeUndefined 0x00) ∧
      decode 0x01FF#16 = .error (.resetWithOperand 0xFF) ∧ decode 0x0301#16 = .error (.finalWithOperand 0x01) ∧
      decode 0x0400#16 = .error (.opcodeUndefined 0x04) ∧ decode 0xFFFF#16 = .error (.opcodeUndefined 0xFF) := by
  decide

theorem test_decode_table_words :
    decodeTableWord 16 0x0100 = some .reset ∧ decodeTableWord 16 0x02FF = some (.absorb 0xFF) ∧
      decodeTableWord 16 0x0300 = some .final ∧ decodeTableWord 16 0x8200 = none := by
  decide

/-! ### The permutation core: V2, V3, V10 -/

theorem test_field :
    [xtime 0x53, mul3 0x53, mul4 0x53, mul5 0x53, mul7 0x53] = [0xA6, 0xF5, 0x57, 0x04, 0xA2] ∧
      [xtime 0xFF, mul3 0xFF, mul4 0xFF, mul5 0xFF, mul7 0xFF] = [0xE5, 0x1A, 0xD1, 0x2E, 0xCB] := by
  decide

theorem test_sbox :
    [sbox 0x00, sbox 0x10, sbox 0x3F, sbox 0x53, sbox 0x9A, sbox 0xC9, sbox 0xFF] =
      [0x63, 0xCA, 0x75, 0xED, 0xB8, 0xDD, 0x16] := by
  decide

theorem test_sbox_inverse : sboxAlgebraic 0x00 = 0x63 ∧ sboxAlgebraic 0x53 = 0xED ∧ gfMul 0x53 0xCA = 0x01 := by
  decide +kernel

theorem test_roundP :
    (roundP (blockOfBytes (BitVec.ofNat 8)) 0).toList =
      bytesOf 32 0xd2aba61d504bbbd715527a1e7d2d2b157c452cc3774d2f649c44c69fcb155152 ++
        bytesOf 32 0x694b152dd0c04a7aa9ae7c7c3af20d721291480fb95ac11e9f0659d75daf50f1 := by
  decide +kernel

theorem test_roundQ :
    (roundQ (blockOfBytes (BitVec.ofNat 8)) 0).toList =
      bytesOf 32 0x9a0fedb6705de3917a55727129e4cfb03e0014a9ef847d7e40c8094d6736afff ++
        bytesOf 32 0x738de1d41a6dc2fe61ac98f94282738fe31326dd03961a05659280906b90c1b7 := by
  decide +kernel

/-! ### Padding: V20 -/

theorem test_pad_55 :
    (pad (seqBytes 55) 0).map Vector.toList = [seqBytes 55 ++ bytesOf 9 0x800000000000000001] := by
  decide +kernel

theorem test_pad_63 :
    (pad (seqBytes 63) 5).map Vector.toList = [seqBytes 63 ++ [0x80], bytesOf 64 7] := by
  decide +kernel

/-! ### The commands: V18, V23 to V25 -/

theorem test_reset_in_fault : exec .reset faultCore = .next State.reset := rfl

theorem test_status :
    statusOf State.reset = 0x0000 ∧ statusOf (activeAt 0 55) = 0x0370 ∧ statusOf (activeAt 0 63) = 0x03F0 ∧
      statusOf finalizedCore = 0x0001 ∧ statusOf faultCore = 0x003A := by
  decide

theorem test_absorb_first_byte : statusAfter (exec (.absorb 0x61) State.reset) = some 0x0010 := by
  decide

theorem test_absorb_overflow :
    statusAfter (exec (.absorb 0x3F) (activeAt (2 ^ 64 - 1) 63)) = some 0x03FE ∧
      statusAfter (exec (.absorb 0x3F) (activeAt (2 ^ 64 - 1) 62)) = some 0x03F0 := by
  decide

theorem test_final_overflow :
    statusAfter (exec .final (activeAt (2 ^ 64 - 2) 56)) = some 0x038E ∧
      statusAfter (exec .final (activeAt (2 ^ 64 - 2) 55)) = some 0x0001 := by
  decide

/-- V18: "abc" is buffered; FINAL presents its digest. -/
theorem test_final_abc :
    nextHas (exec .final (coreAt .active .none 0 [0x61, 0x62, 0x63])) (fun t =>
      t.digest.any fun d =>
        d.toList == bytesOf 32 0xf3c1bb19c048801326a7efbcf16e3d7887446249829c379e1840d1a3a1e7d4d2) = true := by
  decide +kernel

theorem test_use_after_final :
    statusAfter (presentWord 0x0261 finalizedCore) = some 0x0006 ∧ statusAfter (presentWord 0x0300 finalizedCore) = some 0x0006 ∧
      statusAfter (presentWord 0x0100 finalizedCore) = some 0x0000 ∧
      statusAfter (presentWord 0x0000 finalizedCore) = some 0x000A := by
  decide

theorem test_fault_ignores :
    statusAfter (presentWord 0x0204 faultCore) = some 0x003A ∧ statusAfter (presentWord 0x0300 faultCore) = some 0x003A ∧
      statusAfter (presentWord 0xFFFF faultCore) = some 0x003A := by
  decide

/-! ### The assembler: V21 and the errors of R58, R59 -/

theorem test_assemble_absorb :
    assembleProgram ["ABSORB 'a'".toList, "ABSORB 97 ; the same".toList, "ABSORB 0x61".toList] =
      .ok [0x0261, 0x0261, 0x0261] := by
  rfl

theorem test_assemble_hash :
    assembleProgram ["HASH \"abc\"".toList, "UPDATE".toList, "UPDATE hex:ff".toList, "UPDATE 1, 2, 3".toList] =
      .ok [0x0100, 0x0261, 0x0262, 0x0263, 0x0300, 0x02FF, 0x0201, 0x0202, 0x0203] := by
  rfl

theorem test_assemble_errors :
    assembleLine "ABSORB 256".toList = .error .operandOutOfRange ∧ assembleLine "FINAL 0".toList = .error .operandUnexpected ∧
      assembleLine "UPDATE hex:f".toList = .error .operandMalformed ∧ assembleLine "reset".toList = .error .unknownMnemonic :=
  ⟨rfl, rfl, rfl, rfl⟩

/-! ### Witnesses: for each statement with hypotheses, what meets them -/

theorem finalizedCore_inv : CoreInv finalizedCore :=
  ⟨by decide, by decide, fun _ => ⟨rfl, by decide⟩, by decide⟩

theorem faultCore_inv : CoreInv faultCore :=
  ⟨by decide, by decide, fun h => (by cases h), by decide⟩

theorem activeAt_inv (N n : Nat) (h : n < 64) : CoreInv (activeAt N n) := by
  refine ⟨?_, by simp [activeAt, coreAt], fun h => (by cases h), by simp [activeAt, coreAt, State.reset]⟩
  simp only [activeAt, coreAt, seqBytes, BufferCoherent, cellsOf_fst, List.length_map, List.length_range, BitVec.toNat_ofNat]
  rw [Nat.mod_eq_of_lt h]

/-- DecodeFollowsTheOpcodeMap, fourth clause. -/
theorem witness_decode_illegal : 0x0101#16 ≠ 0x0100#16 ∧ (0x0101#16).extractLsb' 8 8 ≠ 0x02#8 ∧ 0x0101#16 ≠ 0x0300#16 := by
  decide

/-- DecodeOfEncodeIsTheInstruction, FetchedWordIsTheOneRun, and ResetRestoresTheResetState's `i ≠ .reset`. -/
theorem witness_wf :
    Instr.reset.wf = true ∧ (Instr.absorb 0x00).wf = true ∧ (Instr.absorb 0xFF).wf = true ∧ Instr.final.wf = true ∧
      Instr.absorb 0xFF ≠ .reset ∧ Instr.final ≠ .reset := by
  decide

/-- EncodeOfDecodeIsTheWord. -/
theorem witness_decode_ok : decode 0x0100 = .ok .reset ∧ decode 0x02FF = .ok (.absorb 0xFF) ∧ decode 0x0300 = .ok .final := by
  decide

/-- IllegalWordsAndTheirEffect, both clauses on a step. -/
theorem witness_illegal :
    decode 0x0000 = .error (.opcodeUndefined 0x00) ∧ (activeAt 0 3).phase ≠ .fault ∧ finalizedCore.phase ≠ .fault ∧
      faultCore.phase = .fault := by
  decide

/-- StepRunsTheDecodedCommand and StepOnAnIllegalWord. -/
theorem witness_present :
    ({ activeAt 0 3 with moves := [.present 0x0261, .readStatus] } : State).moves = .present 0x0261 :: [.readStatus] ∧
      decode 0x0261 = .ok (.absorb 0x61) ∧
      ({ faultCore with moves := [.present 0x03FF] } : State).moves = .present 0x03FF :: [] ∧
      decode 0x03FF = .error (.finalWithOperand 0xFF) := by
  decide

/-- IdleStepHoldsTheState and HardwareResetIsTheResetStep. -/
theorem witness_idle_and_hardware_reset :
    State.reset.moves = [] ∧ ({ faultCore with moves := [.hardwareReset] } : State).moves = .hardwareReset :: [] := by
  decide

/-- PortReadsChangeNothing, its five clauses, and StatusShowsItsFields. -/
theorem witness_port_reads :
    ({ faultCore with moves := [.readStatus] } : State).moves = .readStatus :: [] ∧
      (({ finalizedCore with moves := [.readDigest] } : State).moves = .readDigest :: [] ∧ finalizedCore.phase = .finalized) ∧
      (({ State.reset with moves := [.readDigest] } : State).moves = .readDigest :: [] ∧ State.reset.phase ≠ .finalized) ∧
      ({ State.reset with moves := [.readStatus, .readStatus] } : State).moves = .readStatus :: .readStatus :: [] ∧
      ({ finalizedCore with moves := [.readDigest, .readDigest] } : State).moves = .readDigest :: .readDigest :: [] := by
  decide

/-- ResetRestoresTheResetState, second and third clause, and FaultPhaseIgnoresAllButReset. -/
theorem witness_reset_clauses :
    Instr.final ≠ .reset ∧ exec .final faultCore = .next faultCore ∧ faultCore.phase = .fault ∧
      Instr.absorb 0x61 ≠ .reset ∧ isNext (exec (.absorb 0x61) finalizedCore) = true ∧ finalizedCore.phase = .finalized ∧
      0x02FF#16 ≠ 0x0100#16 := by
  refine ⟨by decide, rfl, rfl, by decide, by decide, rfl, by decide⟩

/-- AbsorbFollowsItsRule, its four clauses, and CounterOverflowJustWhereTheCountWouldNotFit, its first, at BUFLEN 62 and 63 and
at the last two block counts. -/
theorem witness_absorb :
    (BufferCoherent (activeAt (2 ^ 64 - 1) 62) ∧ (activeAt (2 ^ 64 - 1) 62).phase = .active ∧
      (activeAt (2 ^ 64 - 1) 62).buflen.toNat < 63) ∧
    (BufferCoherent (activeAt (2 ^ 64 - 2) 63) ∧ (activeAt (2 ^ 64 - 2) 63).phase = .active ∧
      (activeAt (2 ^ 64 - 2) 63).buflen.toNat = 63 ∧ (activeAt (2 ^ 64 - 2) 63).blkcnt.toNat < 2 ^ 64 - 1) ∧
    (BufferCoherent (activeAt (2 ^ 64 - 1) 63) ∧ (activeAt (2 ^ 64 - 1) 63).phase = .active ∧
      (activeAt (2 ^ 64 - 1) 63).buflen.toNat = 63 ∧ (activeAt (2 ^ 64 - 1) 63).blkcnt.toNat = 2 ^ 64 - 1) ∧
    (BufferCoherent finalizedCore ∧ finalizedCore.phase = .finalized) := by
  decide +kernel

/-- AbsorbFrame, its three clauses; CounterOverflowJustWhereTheCountWouldNotFit, its third, by ABSORB;
CounterCountsTheAbsorbedBlocks. -/
theorem witness_absorb_frame :
    nextHas (exec (.absorb 0x3F) (activeAt 0 62)) (fun t => t.phase == .active) = true ∧
      isNext (exec (.absorb 0x3F) (activeAt (2 ^ 64 - 2) 63)) = true ∧
      nextHas (exec (.absorb 0x3F) (activeAt (2 ^ 64 - 1) 63)) (fun t => t.phase == .fault) = true := by
  decide

/-- FinalFollowsItsRule, its three clauses, and CounterOverflowJustWhereTheCountWouldNotFit, its second, at BUFLEN 55 and 56 and
at the last block counts. -/
theorem witness_final :
    (BufferCoherent (activeAt (2 ^ 64 - 2) 55) ∧ (activeAt (2 ^ 64 - 2) 55).phase = .active ∧
      (activeAt (2 ^ 64 - 2) 55).blkcnt.toNat + 1 ≤ 2 ^ 64 - 1 ∧ (activeAt (2 ^ 64 - 2) 55).buflen.toNat ≤ 55) ∧
    (BufferCoherent (activeAt (2 ^ 64 - 3) 56) ∧ (activeAt (2 ^ 64 - 3) 56).phase = .active ∧
      (activeAt (2 ^ 64 - 3) 56).blkcnt.toNat + 2 ≤ 2 ^ 64 - 1 ∧ ¬(activeAt (2 ^ 64 - 3) 56).buflen.toNat ≤ 55) ∧
    (BufferCoherent (activeAt (2 ^ 64 - 2) 56) ∧ (activeAt (2 ^ 64 - 2) 56).phase = .active ∧
      2 ^ 64 - 1 < (activeAt (2 ^ 64 - 2) 56).blkcnt.toNat + 2 ∧ ¬(activeAt (2 ^ 64 - 2) 56).buflen.toNat ≤ 55) ∧
    (BufferCoherent finalizedCore ∧ finalizedCore.phase = .finalized) := by
  decide +kernel

/-- FinalFrame: one next state in each phase it ends in; CounterOverflowJustWhereTheCountWouldNotFit, its third, by FINAL. -/
theorem witness_final_frame :
    nextHas (exec .final (activeAt (2 ^ 64 - 2) 55)) (fun t => t.phase == .finalized) = true ∧
      nextHas (exec .final (activeAt (2 ^ 64 - 1) 0)) (fun t => t.phase == .fault) = true := by
  decide

/-- CommandsReadNoByteAtOrAboveBuflen: the invariants and stale cells, with BUFLEN 0, 62 and, for the clause on a full block, 63. -/
theorem witness_stale :
    (CoreInv finalizedCore ∧ Memory.wf (finalizedCore.buf ++ [(0, 0xAA#8), (63, 0xBB#8)]) = true) ∧
      (CoreInv (activeAt 0 62) ∧ Memory.wf ((activeAt 0 62).buf ++ [(62, 0xAA#8), (63, 0xBB#8)]) = true) ∧
      (CoreInv (activeAt 0 63) ∧ Memory.wf ((activeAt 0 63).buf ++ [(63, 0xBB#8)]) = true ∧
        (activeAt 0 63).buflen.toNat = 63) :=
  ⟨⟨finalizedCore_inv, by decide +kernel⟩, ⟨activeAt_inv _ _ (by decide), by decide +kernel⟩,
    activeAt_inv _ _ (by decide), by decide +kernel, by decide⟩

/-- UseAfterFinalIsRaised. -/
theorem witness_finalized : finalizedCore.phase = .finalized := rfl

/-- FaultEntryWritesOnlyPhaseErrcodeDigest, second clause. -/
theorem witness_fault_entry :
    (activeAt 0 3).phase ≠ .fault ∧ nextHas (presentWord 0x0101 (activeAt 0 3)) (fun t => t.phase == .fault) = true := by
  decide

/-- PhaseTransitionTable: a next state for every row and for both outcomes of its rows with two; DigestIsWrittenOnlyByFinal. -/
theorem witness_transitions :
    nextHas (presentWord 0x0100 faultCore) (fun t => t.phase == .active) = true ∧
      nextHas (presentWord 0x023F (activeAt 0 63)) (fun t => t.phase == .active) = true ∧
      nextHas (presentWord 0x023F (activeAt (2 ^ 64 - 1) 63)) (fun t => t.errcode == .counterOverflow) = true ∧
      nextHas (presentWord 0x0300 (activeAt 0 56)) (fun t => t.phase == .finalized) = true ∧
      nextHas (presentWord 0x0300 (activeAt (2 ^ 64 - 1) 0)) (fun t => t.errcode == .counterOverflow) = true ∧
      nextHas (presentWord 0x0400 (activeAt 0 0)) (fun t => t.errcode == .illegalCmd) = true ∧
      nextHas (presentWord 0x0261 finalizedCore) (fun t => t.errcode == .useAfterFinal) = true ∧
      nextHas (presentWord 0x0300 finalizedCore) (fun t => t.errcode == .useAfterFinal) = true ∧
      nextHas (presentWord 0x0000 finalizedCore) (fun t => t.errcode == .illegalCmd) = true ∧
      nextHas (presentWord 0x0400 faultCore) (fun t => t.phase == .fault) = true := by
  decide

/-- ErrcodeHoldsTheFirstFault: the invariant, a next state and a changed code, by RESET and by fault entry. -/
theorem witness_errcode :
    (CoreInv faultCore ∧ nextHas (presentWord 0x0100 faultCore) (fun t => t.errcode != faultCore.errcode) = true) ∧
      (CoreInv finalizedCore ∧
        nextHas (presentWord 0x0261 finalizedCore) (fun t => t.errcode != finalizedCore.errcode) = true) :=
  ⟨⟨faultCore_inv, by decide⟩, finalizedCore_inv, by decide⟩

/-- ControlDoesNotDependOnData: two cores that differ in CV and in a buffered byte, with ABSORB of two bytes and with FINAL. -/
theorem witness_control :
    let s := activeAt 0 63
    let s' : State := { coreAt .active .none 0 ([0xFF] ++ (seqBytes 63).drop 1) with cv := #v[1, 2, 3, 4, 5, 6, 7, 8] }
    s ≠ s' ∧ s.phase = s'.phase ∧ s.errcode = s'.errcode ∧ s.blkcnt = s'.blkcnt ∧ s.buflen = s'.buflen ∧
      s.buf.map Prod.fst = s'.buf.map Prod.fst ∧ isNext (exec (.absorb 0x00) s) = true ∧ isNext (exec .final s) = true := by
  decide +kernel

/-- EveryStepKeepsTheInvariants, EveryStepEndsInANextState, EveryStepKeepsTheBufferCanonical: a state in each phase. -/
theorem witness_invariants :
    (CoreInv (activeAt (2 ^ 64 - 1) 63) ∧ Memory.wf (activeAt (2 ^ 64 - 1) 63).buf = true ∧
        isNext (step ((activeAt (2 ^ 64 - 1) 63).withFetchWord 16 0x0261)) = true) ∧
      (CoreInv (finalizedCore.withFetchWord 16 0x0300) ∧ isNext (step (finalizedCore.withFetchWord 16 0x0300)) = true) ∧
      (CoreInv (faultCore.withFetchWord 16 0x0100) ∧ isNext (step (faultCore.withFetchWord 16 0x0100)) = true) := by
  refine ⟨⟨activeAt_inv _ _ (by decide), by decide +kernel, by decide⟩, ⟨?_, by decide⟩, ?_, by decide⟩
  · exact ⟨finalizedCore_inv.1, finalizedCore_inv.2, finalizedCore_inv.3, finalizedCore_inv.4⟩
  · exact ⟨faultCore_inv.1, faultCore_inv.2, faultCore_inv.3, faultCore_inv.4⟩

/-- SboxTableIsItsAlgebraicDefinition, second clause. -/
theorem witness_nonzero_byte : 0x01#8 ≠ 0 ∧ 0xFF#8 ≠ 0 := by
  decide

/-- RoundConstantsByByte, SubBytesAndShiftBytesByRow, MixBytesIsTheCirculantProduct, ViewsOfABlockAgree, CompressByByte,
InitialValueInItsViews: the largest indices. -/
theorem witness_indices : 9 < 10 ∧ 7 < 8 ∧ 63 < 64 ∧ 6 < 7 := by
  decide

/-- MixBytesIsTheCirculantProduct, last clause: a block of equal bytes. -/
theorem witness_equal_column : 7 < 8 ∧ ∀ r, r < 8 → cellOf (blockOfBytes fun _ => 0x53) r 7 = 0x53 := by
  decide +kernel

/-- PaddingBlocksByByte, both clauses at both ends of their ranges. -/
theorem witness_pad :
    ((seqBytes 0).length ≤ 55 ∧ 2 ^ 64 - 2 + 1 < 2 ^ 64) ∧ ((seqBytes 55).length ≤ 55 ∧ 2 ^ 64 - 2 + 1 < 2 ^ 64) ∧
      (56 ≤ (seqBytes 56).length ∧ 2 ^ 64 - 3 + 2 < 2 ^ 64) ∧ (56 ≤ (seqBytes 63).length ∧ (seqBytes 63).length ≤ 63) := by
  decide

/-- LengthFieldCountsBlocks, both clauses at their common boundary, and its last. -/
theorem witness_length_field :
    ((seqBytes 119).length / 64 + 2 < 2 ^ 64 ∧ (seqBytes 119).length % 64 ≤ 55) ∧
      ((seqBytes 120).length / 64 + 2 < 2 ^ 64 ∧ 56 ≤ (seqBytes 120).length % 64) ∧
      (Absorbed (seqBytes 56) (activeAt 0 56) ∧ isNext (exec .final (activeAt 0 56)) = true) :=
  ⟨by simp [seqBytes], by simp [seqBytes], ⟨rfl, rfl, by decide, by decide, by decide, by decide⟩, by decide⟩

/-- AbsorbExtendsTheMessage: one byte before the end of a block, with the largest block count the statement takes. -/
theorem witness_absorbed_at_the_limit :
    ∃ (m : ByteString) (s : State), Absorbed m s ∧ (m.length + 1) / 64 < 2 ^ 64 ∧ m.length % 64 = 62 ∧ m.length / 64 = 2 ^ 64 - 1 := by
  have hl : (List.replicate (2 ^ 70 - 2) (0 : Byte)).length = 2 ^ 70 - 2 := List.length_replicate
  refine ⟨List.replicate (2 ^ 70 - 2) 0, holding _, holding_absorbed _ ?_, ?_, ?_, ?_⟩ <;> rw [hl] <;> omega

/-- FinalPresentsGroestl256OfTheMessage, UpdateDependsOnTheConcatenation, HashPresentsGroestl256: messages on both sides of 55
bytes, the second with a full block. -/
theorem witness_messages :
    (Absorbed (seqBytes 55) (holding (seqBytes 55)) ∧ (seqBytes 55).length / 64 + 2 < 2 ^ 64) ∧
      (Absorbed (seqBytes 127) (holding (seqBytes 127)) ∧ (seqBytes 127).length / 64 + 2 < 2 ^ 64) :=
  ⟨⟨holding_absorbed _ (by simp [seqBytes]), by simp [seqBytes]⟩, holding_absorbed _ (by simp [seqBytes]), by simp [seqBytes]⟩

end Sys2Proof.Tests
end

section
/-! PROOFS. Progress: under `BufferCoherent` every byte the commands read from BUF has a value (10_state.md R20), so each command,
each word and each move of the host answers a next state (00_scope.md R11, 70_reset_and_hazards.md R126). -/

namespace Sys2Proof.Machine

variable {s : State}

/-! ### Reading a coherent buffer -/

/-- What FINAL reads (R90). -/
theorem memRead_buflen (hb : BufferCoherent s) : memRead s.buf 0 s.buflen.toNat = .ok (bufferedBytes s) :=
  memRead_range (hb.trans List.range_eq_range')

/-- What ABSORB reads once its byte completes a block (R89). -/
theorem memRead_fullBlock (hb : BufferCoherent s) (h63 : s.buflen.toNat = 63) (b : Byte) :
    memRead (memWrite s.buf 63#6 b) 0 64 = .ok (bufferedBytes s ++ [b]) := by
  have hkeys : s.buf.map Prod.fst = List.range 63 := h63 ▸ hb
  have happend : memWrite s.buf 63#6 b = s.buf ++ [(63, b)] :=
    memWrite_append (fun x hx => by simpa [hkeys] using hx) b
  have hrange : (s.buf ++ [(63, b)]).map Prod.fst = List.range' 0 64 := by
    rw [List.map_append, hkeys]
    rfl
  rw [happend, memRead_range hrange, List.map_append]
  rfl

/-! ### What ABSORB and FINAL answer in phase ACTIVE, one equation per case -/

theorem absorbActive_of_room (b : Byte) (h : s.buflen.toNat < 63) : absorbActive b s = .next (bufferByte b s) :=
  if_pos h

theorem absorbActive_of_overflow (b : Byte) (h63 : s.buflen.toNat = 63) (ho : counterOverflows s 1 = true) :
    absorbActive b s = .next (raiseFault .counterOverflow s) := by
  simp [absorbActive, Config.bufMax, h63, ho]

theorem absorbActive_of_fullBlock (b : Byte) (hb : BufferCoherent s) (h63 : s.buflen.toNat = 63)
    (ho : counterOverflows s 1 = false) :
    absorbActive b s = .next (absorbFullBlock (blockOfString (bufferedBytes s ++ [b])) s) := by
  simp [absorbActive, Config.bufMax, Config.blockBytes, h63, ho, memRead_fullBlock hb h63]

theorem finalActive_of_overflow (ho : counterOverflows s (padBlockCount s.buflen.toNat) = true) :
    finalActive s = .next (raiseFault .counterOverflow s) :=
  if_pos ho

theorem finalActive_of_fits (hb : BufferCoherent s) (ho : counterOverflows s (padBlockCount s.buflen.toNat) = false) :
    finalActive s = .next (finalizeWith (finalOutput (bufferedBytes s) s) (padBlockCount s.buflen.toNat) s) := by
  simp [finalActive, ho, memRead_buflen hb]

/-! ### Progress, from the pseudocode of a command up to the step -/

theorem absorbActive_progress (b : Byte) (hb : BufferCoherent s) : ∃ t, absorbActive b s = .next t := by
  have hlt := s.buflen.isLt
  by_cases hroom : s.buflen.toNat < 63
  · exact ⟨_, absorbActive_of_room b hroom⟩
  · have h63 : s.buflen.toNat = 63 := by omega
    cases ho : counterOverflows s 1 with
    | true => exact ⟨_, absorbActive_of_overflow b h63 ho⟩
    | false => exact ⟨_, absorbActive_of_fullBlock b hb h63 ho⟩

theorem finalActive_progress (hb : BufferCoherent s) : ∃ t, finalActive s = .next t := by
  cases ho : counterOverflows s (padBlockCount s.buflen.toNat) with
  | true => exact ⟨_, finalActive_of_overflow ho⟩
  | false => exact ⟨_, finalActive_of_fits hb ho⟩

/-- Outside phase ACTIVE the frame of R87 answers a next state itself. -/
theorem inActivePhase_progress {body : State → Result} (hbody : ∃ t, body s = .next t) :
    ∃ t, inActivePhase body s = .next t := by
  cases hp : s.phase with
  | active => exact hbody.imp fun _ h => (inActivePhase_active hp).trans h
  | finalized => exact ⟨_, inActivePhase_finalized hp⟩
  | fault => exact ⟨_, inActivePhase_fault hp⟩

theorem exec_progress (i : Instr) (hb : BufferCoherent s) : ∃ t, exec i s = .next t := by
  cases i with
  | reset => exact ⟨_, rfl⟩
  | absorb imm8 => exact inActivePhase_progress (absorbActive_progress _ hb)
  | final => exact inActivePhase_progress (finalActive_progress hb)

theorem presentWord_of_decode_ok {w : CmdWord} {i : Instr} (h : decode w = .ok i) : presentWord w s = exec i s := by
  simp [presentWord, h]

theorem presentWord_of_decode_error {w : CmdWord} {r : Reject} (h : decode w = .error r) :
    presentWord w s = .next (illegalWord s) := by
  simp [presentWord, h]

theorem presentWord_progress (w : CmdWord) (hb : BufferCoherent s) : ∃ t, presentWord w s = .next t := by
  cases h : decode w with
  | ok i => exact (exec_progress i hb).imp fun _ ht => (presentWord_of_decode_ok h).trans ht
  | error r => exact ⟨_, presentWord_of_decode_error h⟩

theorem hostMove_progress (mv : HostMove) (hb : BufferCoherent s) : ∃ t, hostMove mv s = .next t := by
  cases mv with
  | present w => exact presentWord_progress w hb
  | readStatus => exact ⟨_, rfl⟩
  | readDigest => exact ⟨_, rfl⟩
  | hardwareReset => exact ⟨_, rfl⟩

theorem step_of_no_moves (h : s.moves = []) : step s = .next s := by
  simp [step, h]

theorem step_of_moves {mv : HostMove} {rest : List HostMove} (h : s.moves = mv :: rest) :
    step s = hostMove mv (takeMove rest s) := by
  simp [step, h]

/-- Of the invariants of R32, the one that keeps a step from stopping is that BUF holds the bytes below BUFLEN. -/
theorem step_progress (hb : BufferCoherent s) : ∃ t, step s = .next t := by
  cases h : s.moves with
  | nil => exact ⟨s, step_of_no_moves h⟩
  | cons mv rest =>
    have hb' : BufferCoherent (takeMove rest s) := hb
    exact (hostMove_progress mv hb').imp fun _ ht => (step_of_moves h).trans ht

/-- Settles O33: the invariants give a coherent buffer, and that is what progress needs. -/
theorem everyStepEndsInANextState : Obligations.EveryStepEndsInANextState :=
  fun _ hs => step_progress hs.buffer

end Sys2Proof.Machine
end

section
/-! PROOFS. The decoder read backwards at its two single words, and the word placed next (30_encoding.md R54, R55, 10_state.md R25). -/

namespace Sys2Proof.Machine

variable {s : State}

/-- The words the decoder accepts; RESET and FINAL have one each. -/
theorem decode_ok_cases {w : CmdWord} {i : Instr} (h : decode w = .ok i) :
    (i = .reset ∧ w = 0x0100#16) ∨ (∃ b, i = .absorb b) ∨ (i = .final ∧ w = 0x0300#16) := by
  unfold decode at h
  split at h
  · cases h
    exact .inl ⟨rfl, ‹_›⟩
  · split at h
    · cases h
      exact .inr (.inl ⟨_, rfl⟩)
    · split at h
      · cases h
        exact .inr (.inr ⟨rfl, ‹_›⟩)
      · cases h

theorem decode_eq_reset_iff {w : CmdWord} : decode w = .ok .reset ↔ w = 0x0100#16 :=
  ⟨fun h => by simpa using decode_ok_cases h, fun h => h ▸ rfl⟩

theorem decode_eq_final_iff {w : CmdWord} : decode w = .ok .final ↔ w = 0x0300#16 :=
  ⟨fun h => by simpa using decode_ok_cases h, fun h => h ▸ rfl⟩

theorem decode_encode (i : Instr) : decode (encode i) = .ok i := by
  cases i with
  | reset => rfl
  | final => rfl
  | absorb b =>
    have hf : formatOf (encode (.absorb b)) = { opc := 0x02#8, imm8 := b } := (Laws.EncodingFields.absorb b).1
    have hopc : (formatOf (encode (.absorb b))).opc = 0x02#8 := congrArg FormatC.opc hf
    have hne : encode (.absorb b) ≠ 0x0100#16 := fun h => absurd (h ▸ hopc) (by decide)
    rw [decode, if_neg hne, hf, if_pos rfl]

theorem wordOfTable_toNat (w : CmdWord) : wordOfTable 16 w.toNat = w := by
  rw [wordOfTable, Nat.mod_eq_of_lt w.isLt, BitVec.ofNat_toNat, BitVec.setWidth_eq]

/-- R25, R87: a step on a presented word that decodes. -/
theorem step_of_present_ok {w : CmdWord} {rest : List HostMove} {i : Instr} (hm : s.moves = .present w :: rest)
    (hd : decode w = .ok i) : step s = exec i (takeMove rest s) :=
  (step_of_moves hm).trans (presentWord_of_decode_ok hd)

/-- Settles O8: `takeMove` is the removal of the move and of the last reply. -/
theorem stepRunsTheDecodedCommand : Obligations.StepRunsTheDecodedCommand :=
  fun _ _ _ _ hm hd => step_of_present_ok hm hd

/-- Settles O10: the table's numbering gives the encoded word back, and the decoder its instruction. -/
theorem fetchedWordIsTheOneRun : Obligations.FetchedWordIsTheOneRun := by
  intro s i _
  have hd : decode (wordOfTable 16 (encode i).toNat) = .ok i := by
    rw [wordOfTable_toNat, decode_encode]
  exact step_of_present_ok (presentNext_moves _ s) hd

end Sys2Proof.Machine
end

section
/-! PROOFS. STATUS (10_state.md R24), the reset state (R30) and the views of a block (R17). -/

namespace Sys2Proof.Machine

/-! ### The fields of STATUS -/

theorem statusOf_phase (s : State) : (statusOf s).extractLsb' 0 2 = s.phase.code :=
  BitVec.extractLsb'_append_eq_right

theorem statusOf_errcode (s : State) : (statusOf s).extractLsb' 2 2 = s.errcode.code := by
  rw [statusOf, BitVec.extractLsb'_append_eq_of_le (by decide)]
  exact BitVec.extractLsb'_append_eq_right

theorem statusOf_buflen (s : State) : (statusOf s).extractLsb' 4 6 = s.buflen := by
  rw [statusOf, BitVec.extractLsb'_append_eq_of_le (by decide), BitVec.extractLsb'_append_eq_of_le (by decide)]
  exact BitVec.extractLsb'_append_eq_right

theorem statusOf_unused (s : State) : (statusOf s).extractLsb' 10 6 = 0#6 := by
  rw [statusOf, BitVec.extractLsb'_append_eq_of_le (by decide), BitVec.extractLsb'_append_eq_of_le (by decide)]
  exact BitVec.extractLsb'_append_eq_left

theorem statusOf_reset : statusOf State.reset = 0x0000#16 := by
  decide

/-- Settles O14: STATUS is its four fields side by side, so each is read off as a slice. -/
theorem statusShowsItsFields : Obligations.StatusShowsItsFields := by
  refine ⟨fun s => ⟨?_, ?_, statusOf_buflen s, statusOf_unused s⟩, statusOf_reset, fun s rest hm => step_of_moves hm⟩
  · rw [statusOf_phase]
    cases s.phase <;> rfl
  · rw [statusOf_errcode]
    cases s.errcode <;> rfl

/-! ### The reset state -/

theorem reset_cv : State.reset.cv = wordsOfBlock ivBlock := by
  decide

theorem reset_cv_low_words {c : Nat} (hc : c < 7) : State.reset.cv.toList.getD c 1 = 0 := by
  revert c
  decide

/-- Settles O16: CV by evaluating the IV's words, the other items as the reset state is written. -/
theorem resetStateHasTheResetValues : Obligations.ResetStateHasTheResetValues :=
  ⟨reset_cv, fun _ hc => reset_cv_low_words hc, rfl, rfl, rfl, rfl, rfl, rfl, rfl, statusOf_reset⟩

/-- I1 to I4 and I6 at reset (R32). -/
theorem coreInv_reset : CoreInv State.reset where
  buffer := rfl
  errcode := by simp
  finalized := by simp
  digest := by simp

/-- I5 at reset: CV is the IV with no block folded in. -/
theorem absorbed_reset : Absorbed [] State.reset where
  phase := rfl
  errcode := rfl
  length := rfl
  cv := reset_cv
  buffer := rfl
  bytes := rfl

/-- Settles O31: with no bytes absorbed CV is the IV itself. -/
theorem resetStateMeetsTheInvariants : Obligations.ResetStateMeetsTheInvariants :=
  ⟨coreInv_reset, absorbed_reset, reset_buf_wf⟩

/-! ### The views of a block -/

/-- A byte placed above `y` adds its value times the power of two that `y` stays below. -/
theorem toNat_append_eq_add {m n : Nat} (x : BitVec m) (y : BitVec n) :
    (x ++ y).toNat = x.toNat * 2 ^ n + y.toNat := by
  rw [BitVec.toNat_append, ← Nat.shiftLeft_add_eq_or_of_lt y.isLt, Nat.shiftLeft_eq]

/-- R17: `W[c] = sum over r of S[8c + r] * 2^(8r)`. -/
theorem wordOf_toNat (S : Block) (c : Nat) :
    (wordOf S c).toNat = ((List.range 8).map fun j => (byteOf S (8 * c + j)).toNat * 2 ^ (8 * j)).sum := by
  simp only [wordOf, cellOf, toNat_append_eq_add, List.range_succ, List.range_zero, List.map_append, List.map_cons,
    List.map_nil, List.sum_append, List.sum_cons, List.sum_nil]
  omega

theorem le64_wordOf (S : Block) (c : Nat) :
    le64 (wordOf S c) = (List.range 8).map fun j => byteOf S (8 * c + j) :=
  List.map_congr_left fun _ hj => wordOf_extract S c (List.mem_range.mp hj)

/-- Settles O43: the word is its column's bytes one above the other. -/
theorem viewsOfABlockAgree : Obligations.ViewsOfABlockAgree :=
  fun S _ c hr _ => ⟨rfl, wordOf_toNat S c, wordOf_extract S c hr, le64_wordOf S c⟩

end Sys2Proof.Machine
end

section
/-! PROOFS. What a presented word can do, as one relation (42_commands.md R87 to R90, R93, 60_exceptions.md R97 to R103), and what
it says of the invariants, ERRCODE, BLKCNT and DIGEST (10_state.md R19, R22, R23, R32). -/

namespace Sys2Proof.Machine

variable {s t : State} {d : Except Reject Instr} {e : ErrCode}

/-! ### The relation -/

/-- A word that decodes to `d` raises the fault `e` in state `s` (R97 to R99). -/
inductive Raises : Except Reject Instr → State → ErrCode → Prop
  | illegal {s : State} (r : Reject) (hp : s.phase ≠ .fault) : Raises (.error r) s .illegalCmd
  | afterFinal {s : State} {i : Instr} (hi : i ≠ .reset) (hp : s.phase = .finalized) : Raises (.ok i) s .useAfterFinal
  | absorbOverflow {s : State} (b : Byte) (hp : s.phase = .active) (h63 : s.buflen.toNat = 63)
      (ho : counterOverflows s 1 = true) : Raises (.ok (.absorb b)) s .counterOverflow
  | finalOverflow {s : State} (hp : s.phase = .active)
      (ho : counterOverflows s (padBlockCount s.buflen.toNat) = true) : Raises (.ok .final) s .counterOverflow

/-- A word that decodes to `d` takes `s` to the next state `t`. -/
inductive CommandStep : Except Reject Instr → State → State → Prop
  | reset (s : State) : CommandStep (.ok .reset) s (resetCore s)
  | ignored {d : Except Reject Instr} {s : State} (hd : d ≠ .ok .reset) (hp : s.phase = .fault) : CommandStep d s s
  | faulted {d : Except Reject Instr} {s : State} {e : ErrCode} (h : Raises d s e) : CommandStep d s (raiseFault e s)
  | buffered {s : State} (b : Byte) (hp : s.phase = .active) (hroom : s.buflen.toNat < 63) :
      CommandStep (.ok (.absorb b)) s (bufferByte b s)
  | blockAbsorbed {s : State} (b : Byte) (blk : ByteString) (hp : s.phase = .active) (h63 : s.buflen.toNat = 63)
      (ho : counterOverflows s 1 = false) (hr : memRead (memWrite s.buf 63#6 b) 0 64 = .ok blk) :
      CommandStep (.ok (.absorb b)) s (absorbFullBlock (blockOfString blk) s)
  | finalized {s : State} (B : ByteString) (hp : s.phase = .active)
      (ho : counterOverflows s (padBlockCount s.buflen.toNat) = false)
      (hr : memRead s.buf 0 s.buflen.toNat = .ok B) :
      CommandStep (.ok .final) s (finalizeWith (finalOutput B s) (padBlockCount s.buflen.toNat) s)

theorem commandStep_of_exec {i : Instr} (h : exec i s = .next t) : CommandStep (.ok i) s t := by
  cases i with
  | reset =>
    cases h
    exact .reset s
  | absorb b =>
    rcases execAbsorb_next h with ⟨hp, rfl⟩ | ⟨hp, rfl⟩ | ⟨hp, ha⟩
    · exact .ignored (by simp) hp
    · exact .faulted (.afterFinal (by simp) hp)
    · rcases absorbActive_next ha with ⟨hroom, rfl⟩ | ⟨h63, ho, rfl⟩ | ⟨h63, ho, blk, hr, rfl⟩
      · exact .buffered b hp hroom
      · exact .faulted (.absorbOverflow b hp h63 ho)
      · exact .blockAbsorbed b blk hp h63 ho hr
  | final =>
    rcases execFinal_next h with ⟨hp, rfl⟩ | ⟨hp, rfl⟩ | ⟨hp, ha⟩
    · exact .ignored (by simp) hp
    · exact .faulted (.afterFinal (by simp) hp)
    · rcases finalActive_next ha with ⟨ho, rfl⟩ | ⟨ho, B, hr, rfl⟩
      · exact .faulted (.finalOverflow hp ho)
      · exact .finalized B hp ho hr

theorem commandStep_of_presentWord {w : CmdWord} (h : presentWord w s = .next t) : CommandStep (decode w) s t := by
  rcases presentWord_next h with ⟨i, hd, hi⟩ | ⟨r, hd, rfl⟩
  · rw [hd]
    exact commandStep_of_exec hi
  · rw [hd]
    by_cases hp : s.phase = .fault
    · rw [illegalWord_of_fault hp]
      exact .ignored (by simp) hp
    · rw [illegalWord_of_not_fault hp]
      exact .faulted (.illegal r hp)

theorem exec_absorb_of_active (hp : s.phase = .active) (b : Byte) : exec (.absorb b) s = absorbActive b s := by
  simp [exec, execAbsorb, inActivePhase_active hp]

theorem exec_final_of_active (hp : s.phase = .active) : exec .final s = finalActive s :=
  inActivePhase_active hp

theorem exec_of_finalized {i : Instr} (hi : i ≠ .reset) (hp : s.phase = .finalized) :
    exec i s = .next (raiseFault .useAfterFinal s) := by
  cases i with
  | reset => exact absurd rfl hi
  | absorb b => exact inActivePhase_finalized hp
  | final => exact inActivePhase_finalized hp

theorem exec_of_fault {i : Instr} (hi : i ≠ .reset) (hp : s.phase = .fault) : exec i s = .next s := by
  cases i with
  | reset => exact absurd rfl hi
  | absorb b => exact inActivePhase_fault hp
  | final => exact inActivePhase_fault hp

/-- The relation gives the meaning back: for an instruction it says just when `exec` answers a next state, and which. -/
theorem exec_of_commandStep {i : Instr} (h : CommandStep (.ok i) s t) : exec i s = .next t := by
  cases h with
  | reset => rfl
  | ignored hd hp => exact exec_of_fault (fun hi => hd (congrArg _ hi)) hp
  | faulted h =>
    cases h with
    | afterFinal hi hp => exact exec_of_finalized hi hp
    | absorbOverflow b hp h63 ho => rw [exec_absorb_of_active hp, absorbActive_of_overflow b h63 ho]
    | finalOverflow hp ho => rw [exec_final_of_active hp, finalActive_of_overflow ho]
  | buffered b hp hroom => rw [exec_absorb_of_active hp, absorbActive_of_room b hroom]
  | blockAbsorbed b blk hp h63 ho hr =>
    rw [exec_absorb_of_active hp]
    simp [absorbActive, Config.bufMax, Config.blockBytes, h63, ho, hr]
  | finalized B hp ho hr =>
    rw [exec_final_of_active hp]
    simp [finalActive, ho, hr]

/-! ### What a fault needs, and the count that fits -/

theorem raises_errcode_ne_none (h : Raises d s e) : e ≠ .none := by
  cases h <;> simp

theorem raises_phase_ne_fault (h : Raises d s e) : s.phase ≠ .fault := by
  cases h with
  | illegal r hp => exact hp
  | afterFinal hi hp => simp [hp]
  | absorbOverflow b hp h63 ho => simp [hp]
  | finalOverflow hp ho => simp [hp]

theorem counterOverflows_eq_false_iff (k : Nat) : counterOverflows s k = false ↔ s.blkcnt.toNat + k < 2 ^ 64 := by
  simp only [counterOverflows, Config.cntMax, decide_eq_false_iff_not]
  omega

theorem finalizeWith_blkcnt_toNat (o : Block) {k : Nat} (hk : s.blkcnt.toNat + k < 2 ^ 64) :
    (finalizeWith o k s).blkcnt.toNat = s.blkcnt.toNat + k := by
  rw [finalizeWith_blkcnt, BitVec.toNat_ofNat, Nat.mod_eq_of_lt hk]

theorem absorbFullBlock_blkcnt_toNat (blk : Block) (hk : s.blkcnt.toNat + 1 < 2 ^ 64) :
    (absorbFullBlock blk s).blkcnt.toNat = s.blkcnt.toNat + 1 := by
  rw [absorbFullBlock_blkcnt, BitVec.toNat_add]
  exact Nat.mod_eq_of_lt hk

theorem bufferByte_buflen_toNat (b : Byte) (hroom : s.buflen.toNat < 63) :
    (bufferByte b s).buflen.toNat = s.buflen.toNat + 1 := by
  rw [bufferByte_buflen, BitVec.toNat_add]
  exact Nat.mod_eq_of_lt (Nat.succ_lt_succ hroom)

theorem padBlockCount_pos (L : Nat) : 1 ≤ padBlockCount L := by
  unfold padBlockCount
  split <;> omega

theorem pad_length (B : ByteString) (N : Nat) : (pad B N).length = padBlockCount B.length := by
  unfold pad padBlockCount
  split <;> rfl

/-! ### The invariants (R32) -/

/-- In a coherent buffer the next byte goes behind the others. -/
theorem bufferByte_buf_of_coherent (b : Byte) (hb : BufferCoherent s) :
    (bufferByte b s).buf = s.buf ++ [(s.buflen.toNat, b)] :=
  memWrite_append (fun x hx => by simpa [hb] using hx) b

theorem bufferCoherent_bufferByte (b : Byte) (hb : BufferCoherent s) (hroom : s.buflen.toNat < 63) :
    BufferCoherent (bufferByte b s) := by
  rw [BufferCoherent, bufferByte_buf_of_coherent b hb, bufferByte_buflen_toNat b hroom, List.map_append, hb,
    List.range_succ]
  rfl

theorem coreInv_resetCore (s : State) : CoreInv (resetCore s) :=
  ⟨rfl, by simp, by simp, by simp⟩

theorem coreInv_raiseFault (hs : CoreInv s) (he : e ≠ .none) : CoreInv (raiseFault e s) :=
  ⟨hs.buffer, by simp [he], by simp, by simp⟩

theorem coreInv_bufferByte (b : Byte) (hs : CoreInv s) (hp : s.phase = .active) (hroom : s.buflen.toNat < 63) :
    CoreInv (bufferByte b s) :=
  ⟨bufferCoherent_bufferByte b hs.buffer hroom, hs.errcode, by simp [hp], hs.digest⟩

theorem coreInv_absorbFullBlock (blk : Block) (hs : CoreInv s) (hp : s.phase = .active) :
    CoreInv (absorbFullBlock blk s) :=
  ⟨rfl, hs.errcode, by simp [hp], hs.digest⟩

theorem coreInv_finalizeWith (o : Block) {k : Nat} (hs : CoreInv s) (hp : s.phase = .active) (hk : 1 ≤ k)
    (hfits : s.blkcnt.toNat + k < 2 ^ 64) : CoreInv (finalizeWith o k s) := by
  refine ⟨rfl, ?_, fun _ => ⟨rfl, ?_⟩, by simp⟩
  · simpa [hp] using hs.errcode
  · rw [finalizeWith_blkcnt_toNat o hfits]
    omega

theorem commandStep_keeps_coreInv (h : CommandStep d s t) (hs : CoreInv s) : CoreInv t := by
  cases h with
  | reset => exact coreInv_resetCore s
  | ignored => exact hs
  | faulted h => exact coreInv_raiseFault hs (raises_errcode_ne_none h)
  | buffered b hp hroom => exact coreInv_bufferByte b hs hp hroom
  | blockAbsorbed b blk hp => exact coreInv_absorbFullBlock _ hs hp
  | finalized B hp ho hr =>
    exact coreInv_finalizeWith _ hs hp (padBlockCount_pos _) ((counterOverflows_eq_false_iff _).mp ho)

/-- The invariants do not speak of the host's side: what takes a move off the list or reads a port keeps them. -/
theorem coreInv_withHost (hs : CoreInv s) (ms : List HostMove) (r : Reply) : CoreInv { s with moves := ms, reply := r } :=
  ⟨hs.buffer, hs.errcode, hs.finalized, hs.digest⟩

theorem hostMove_keeps_coreInv {mv : HostMove} (h : hostMove mv s = .next t) (hs : CoreInv s) : CoreInv t := by
  cases mv with
  | present w => exact commandStep_keeps_coreInv (commandStep_of_presentWord h) hs
  | readStatus =>
    cases h
    exact coreInv_withHost hs _ _
  | readDigest =>
    cases h
    exact coreInv_withHost hs _ _
  | hardwareReset =>
    cases h
    exact coreInv_resetCore s

/-- Settles O32, over the host's moves: of these only a presented word and a reset write the core's own items. -/
theorem everyStepKeepsTheInvariants : Obligations.EveryStepKeepsTheInvariants := by
  intro s t hs h
  rcases step_next h with ⟨-, rfl⟩ | ⟨mv, rest, -, hmv⟩
  · exact hs
  · exact hostMove_keeps_coreInv hmv (coreInv_withHost hs rest .nothing)

/-! ### ERRCODE, BLKCNT and DIGEST -/

theorem errcode_eq_none_iff (hs : CoreInv s) : s.errcode = .none ↔ s.phase ≠ .fault :=
  not_not.symm.trans (not_congr hs.errcode)

theorem commandStep_errcode (h : CommandStep d s t) (hs : CoreInv s) (hne : t.errcode ≠ s.errcode) :
    (d = .ok .reset ∧ t.errcode = .none) ∨ (s.errcode = .none ∧ t = raiseFault t.errcode s) := by
  cases h with
  | reset => exact .inl ⟨rfl, rfl⟩
  | faulted h => exact .inr ⟨(errcode_eq_none_iff hs).mpr (raises_phase_ne_fault h), rfl⟩
  | ignored | buffered | blockAbsorbed | finalized => exact absurd rfl hne

/-- Settles O27: only RESET and fault entry write ERRCODE, and the latter from outside FAULT, where the code is NONE (I3). -/
theorem errcodeHoldsTheFirstFault : Obligations.ErrcodeHoldsTheFirstFault := by
  refine ⟨⟨rfl, rfl, rfl, rfl⟩, fun w s t hs h => ?_⟩
  have hstep := commandStep_of_presentWord h
  refine ⟨errcode_eq_none_iff (commandStep_keeps_coreInv hstep hs), fun hne => ?_⟩
  simpa only [decode_eq_reset_iff] using commandStep_errcode hstep hs hne

/-- The blocks that account for the new CV account for BLKCNT too, since the count was tested to fit. -/
theorem commandStep_blocks {i : Instr} (h : CommandStep (.ok i) s t) (hi : i ≠ .reset) :
    ∃ blks : List Block, t.blkcnt.toNat = s.blkcnt.toNat + blks.length ∧
      ((blks = [] ∧ t.cv = s.cv) ∨
       (∃ b blk, i = .absorb b ∧ blks = [blk] ∧ t.cv = wordsOfBlock (compress (blockOfWords s.cv) blk)) ∨
       (i = .final ∧ t.cv = wordsOfBlock (outputTransform (absorbBlocks (blockOfWords s.cv) blks)))) := by
  cases h with
  | reset => exact absurd rfl hi
  | ignored | faulted | buffered => exact ⟨[], rfl, .inl ⟨rfl, rfl⟩⟩
  | blockAbsorbed b blk hp h63 ho hr =>
    have hfits := (counterOverflows_eq_false_iff 1).mp ho
    exact ⟨[blockOfString blk], absorbFullBlock_blkcnt_toNat _ hfits, .inr (.inl ⟨b, _, rfl, rfl, rfl⟩)⟩
  | finalized B hp ho hr =>
    have hfits := (counterOverflows_eq_false_iff _).mp ho
    obtain ⟨hlen, -⟩ := memRead_ok hr
    refine ⟨pad B s.blkcnt.toNat, ?_, .inr (.inr ⟨rfl, rfl⟩)⟩
    rw [finalizeWith_blkcnt_toNat _ hfits, pad_length, hlen]

/-- Settles O28: the commands but RESET by the blocks they absorb. -/
theorem counterCountsTheAbsorbedBlocks : Obligations.CounterCountsTheAbsorbedBlocks := by
  refine fun i s t h => ⟨?_, commandStep_blocks (commandStep_of_exec h)⟩
  rintro rfl
  cases h
  rfl

/-- FINAL's digest is that of the block it leaves in CV. -/
theorem finalizeWith_digest_of_cv (o : Block) (k : Nat) (s : State) :
    (finalizeWith o k s).digest = some (digestOf (blockOfWords (finalizeWith o k s).cv)) := by
  simp

theorem commandStep_digest (h : CommandStep d s t) :
    t.digest = s.digest ∨ t.digest = none ∨
      (d = .ok .final ∧ t.phase = .finalized ∧ t.digest = some (digestOf (blockOfWords t.cv))) := by
  cases h with
  | ignored | buffered | blockAbsorbed => exact .inl rfl
  | reset | faulted => exact .inr (.inl rfl)
  | finalized => exact .inr (.inr ⟨rfl, rfl, finalizeWith_digest_of_cv _ _ s⟩)

theorem commandStep_digest_of_final (h : CommandStep (.ok .final) s t) (ht : t.phase = .finalized) :
    t.digest = some (digestOf (blockOfWords t.cv)) := by
  cases h with
  | ignored hd hp => cases hp.symm.trans ht
  | faulted => cases ht
  | finalized => exact finalizeWith_digest_of_cv _ _ s

theorem commandStep_digest_of_reset (h : CommandStep (.ok .reset) s t) : t.digest = none := by
  cases h with
  | reset => rfl
  | ignored hd => exact absurd rfl hd
  | faulted h => rfl

theorem commandStep_digest_of_fault_entry (h : CommandStep d s t) (hs : s.phase ≠ .fault) (ht : t.phase = .fault) :
    t.digest = none := by
  cases h with
  | reset | faulted => rfl
  | ignored hd hp => exact absurd hp hs
  | buffered | blockAbsorbed => exact absurd ht hs
  | finalized => cases ht

theorem digestPort_of_finalized (hp : s.phase = .finalized) : digestPort s = s.digest := by
  simp [digestPort, hp]

theorem digestPort_of_not_finalized (hp : s.phase ≠ .finalized) : digestPort s = none := by
  unfold digestPort
  split
  · contradiction
  · rfl
  · rfl

/-- Settles O29: by the steps of the word, FINAL's block being read back from the words of CV. -/
theorem digestIsWrittenOnlyByFinal : Obligations.DigestIsWrittenOnlyByFinal := by
  refine ⟨fun w s t h => ?_, fun s => ⟨digestPort_of_finalized, digestPort_of_not_finalized⟩⟩
  have hstep := commandStep_of_presentWord h
  refine ⟨?_, fun hw ht => ?_, fun hw => ?_, commandStep_digest_of_fault_entry hstep⟩
  · simpa only [decode_eq_final_iff] using commandStep_digest hstep
  · rw [decode_eq_final_iff.mpr hw] at hstep
    exact commandStep_digest_of_final hstep ht
  · rw [decode_eq_reset_iff.mpr hw] at hstep
    exact commandStep_digest_of_reset hstep

end Sys2Proof.Machine
end

section
/-! PROOFS. What commands read of BUF: control depends on which addresses hold a byte (10_state.md R29, 70_reset_and_hazards.md
R124), and the bytes from BUFLEN up are not read at all (10_state.md R20, 20_memory.md R33). -/

namespace Sys2Proof.Machine

/-! ### Control and data -/

section

variable {s s' t : State}

/-- What STATUS, the block count and the extent of BUF are made of; CV, the bytes and DIGEST are left free. -/
structure ControlAgrees (s s' : State) : Prop where
  phase : s.phase = s'.phase
  errcode : s.errcode = s'.errcode
  blkcnt : s.blkcnt = s'.blkcnt
  buflen : s.buflen = s'.buflen
  keys : s.buf.map Prod.fst = s'.buf.map Prod.fst

/-- Two commands that differ at most in the byte they absorb. -/
inductive SameCommand : Instr → Instr → Prop
  | absorb (b b' : Byte) : SameCommand (.absorb b) (.absorb b')
  | final : SameCommand .final .final

theorem memWrite_keys_congr {m m' : Memory} (h : m.map Prod.fst = m'.map Prod.fst) (a : BitVec 6) (v v' : Byte) :
    (memWrite m a v).map Prod.fst = (memWrite m' a v').map Prod.fst := by
  induction m generalizing m' with
  | nil =>
    obtain rfl : m' = [] := by simpa using h.symm
    rfl
  | cons p m ih =>
    obtain ⟨x, y⟩ := p
    match m' with
    | [] => simp at h
    | (x', y') :: m' =>
      obtain ⟨rfl, hrest⟩ : x = x' ∧ m.map Prod.fst = m'.map Prod.fst := by simpa using h
      simp only [memWrite]
      split
      · simp [hrest]
      · split
        · simp [hrest]
        · simp [ih hrest]

/-- Whether a read succeeds depends on the addresses alone. -/
theorem memRead_ok_of_keys_eq {m m' : Memory} (h : m.map Prod.fst = m'.map Prod.fst) {addr n : Nat} {bs : ByteString}
    (hr : memRead m addr n = .ok bs) : ∃ bs', memRead m' addr n = .ok bs' := by
  cases hr' : memRead m' addr n with
  | ok bs' => exact ⟨bs', rfl⟩
  | error a =>
    obtain ⟨hlow, hhigh, hnone⟩ := memRead_error hr'
    obtain ⟨hlen, hbyte⟩ := memRead_ok hr
    have hsome : (memByte m a).isSome = true := by
      have := hbyte (a - addr) (by omega)
      rw [Nat.add_sub_cancel' hlow] at this
      rw [this, List.getElem?_eq_getElem (by omega)]
      rfl
    rw [memByte_isSome_iff, h, ← memByte_isSome_iff, hnone] at hsome
    cases hsome

theorem statusOf_congr (h : ControlAgrees s s') : statusOf s = statusOf s' := by
  rw [statusOf, statusOf, h.phase, h.errcode, h.buflen]

theorem counterOverflows_congr (h : ControlAgrees s s') (k : Nat) : counterOverflows s k = counterOverflows s' k := by
  rw [counterOverflows, counterOverflows, h.blkcnt]

theorem controlAgrees_raiseFault (h : ControlAgrees s s') (e : ErrCode) :
    ControlAgrees (raiseFault e s) (raiseFault e s') :=
  ⟨rfl, rfl, h.blkcnt, h.buflen, h.keys⟩

theorem controlAgrees_bufferByte (h : ControlAgrees s s') (b b' : Byte) :
    ControlAgrees (bufferByte b s) (bufferByte b' s') := by
  refine ⟨h.phase, h.errcode, h.blkcnt, congrArg (· + 1) h.buflen, ?_⟩
  rw [bufferByte_buf, bufferByte_buf, ← h.buflen]
  exact memWrite_keys_congr h.keys _ b b'

theorem controlAgrees_absorbFullBlock (h : ControlAgrees s s') (blk blk' : Block) :
    ControlAgrees (absorbFullBlock blk s) (absorbFullBlock blk' s') :=
  ⟨h.phase, h.errcode, congrArg (· + 1) h.blkcnt, rfl, rfl⟩

theorem controlAgrees_finalizeWith (h : ControlAgrees s s') (o o' : Block) (k : Nat) :
    ControlAgrees (finalizeWith o k s) (finalizeWith o' k s') :=
  ⟨rfl, h.errcode, congrArg (fun n : BitVec 64 => BitVec.ofNat 64 (n.toNat + k)) h.blkcnt, rfl, rfl⟩

/-- The same fault is raised. -/
theorem raises_of_controlAgrees {i i' : Instr} {e : ErrCode} (h : ControlAgrees s s') (hi : SameCommand i i')
    (hr : Raises (.ok i) s e) : Raises (.ok i') s' e := by
  cases hr with
  | afterFinal _ hp => exact .afterFinal (by cases hi <;> simp) (h.phase ▸ hp)
  | absorbOverflow b hp h63 ho =>
    cases hi
    exact .absorbOverflow _ (h.phase ▸ hp) (h.buflen ▸ h63) (counterOverflows_congr h 1 ▸ ho)
  | finalOverflow hp ho =>
    cases hi
    rw [counterOverflows_congr h, h.buflen] at ho
    exact .finalOverflow (h.phase ▸ hp) ho

theorem commandStep_of_controlAgrees {i i' : Instr} (h : ControlAgrees s s') (hi : SameCommand i i')
    (hst : CommandStep (.ok i) s t) : ∃ t', CommandStep (.ok i') s' t' ∧ ControlAgrees t t' := by
  cases hst with
  | reset => cases hi
  | ignored _ hp => exact ⟨s', .ignored (by cases hi <;> simp) (h.phase ▸ hp), h⟩
  | faulted hr => exact ⟨_, .faulted (raises_of_controlAgrees h hi hr), controlAgrees_raiseFault h _⟩
  | buffered b hp hroom =>
    cases hi
    exact ⟨_, .buffered _ (h.phase ▸ hp) (h.buflen ▸ hroom), controlAgrees_bufferByte h _ _⟩
  | blockAbsorbed b blk hp h63 ho hr =>
    cases hi with
    | absorb _ b' =>
      obtain ⟨blk', hr'⟩ := memRead_ok_of_keys_eq (memWrite_keys_congr h.keys _ b b') hr
      exact ⟨_, .blockAbsorbed b' blk' (h.phase ▸ hp) (h.buflen ▸ h63) (counterOverflows_congr h 1 ▸ ho) hr',
        controlAgrees_absorbFullBlock h _ _⟩
  | finalized B hp ho hr =>
    cases hi
    obtain ⟨B', hr'⟩ := memRead_ok_of_keys_eq h.keys hr
    rw [h.buflen] at hr'
    rw [counterOverflows_congr h, h.buflen] at ho
    refine ⟨_, .finalized B' (h.phase ▸ hp) ho hr', ?_⟩
    rw [h.buflen]
    exact controlAgrees_finalizeWith h _ _ _

/-- Settles O30: agreement on control is kept, and STATUS, BLKCNT and the addresses are part of it. -/
theorem controlDoesNotDependOnData : Obligations.ControlDoesNotDependOnData := by
  intro s s' t i i' hphase herr hblk hlen hkeys hi h
  have hagree : ControlAgrees s s' := ⟨hphase, herr, hblk, hlen, hkeys⟩
  have hsame : SameCommand i i' := by
    rcases hi with ⟨b, b', rfl, rfl⟩ | ⟨rfl, rfl⟩
    · exact .absorb b b'
    · exact .final
  obtain ⟨t', hst, ht⟩ := commandStep_of_controlAgrees hagree hsame (commandStep_of_exec h)
  exact ⟨t', exec_of_commandStep hst, (statusOf_congr ht).symm, ht.blkcnt.symm, ht.keys.symm⟩

end

/-! ### Stale cells -/

section

variable {s t : State} {m : Memory}

/-- The buffer `m` has the bytes of `m'` at every address below `n`. -/
def AgreesBelow (n : Nat) (m m' : Memory) : Prop :=
  ∀ a, a < n → memByte m a = memByte m' a

theorem agreesBelow_refl (n : Nat) (m : Memory) : AgreesBelow n m m :=
  fun _ _ => rfl

theorem agreesBelow_memWrite {m' : Memory} {a : BitVec 6} (h : AgreesBelow a.toNat m m') (b : Byte) :
    AgreesBelow (a.toNat + 1) (memWrite m a b) (memWrite m' a b) := by
  intro x hx
  rcases Nat.lt_succ_iff_lt_or_eq.mp hx with hlt | rfl
  · rw [memByte_memWrite_other m a b hlt.ne, memByte_memWrite_other m' a b hlt.ne, h x hlt]
  · rw [memByte_memWrite_same, memByte_memWrite_same]

theorem memRead_of_agreesBelow {m' : Memory} {n : Nat} (h : AgreesBelow n m m') : memRead m 0 n = memRead m' 0 n :=
  memRead_congr fun x _ hx => h x (by omega)

/-- The read of a full block (R89), the byte that completes it being written first. -/
theorem memRead_fullBlock_of_agreesBelow {m' : Memory} (h : AgreesBelow 63 m m') (b : Byte) :
    memRead (memWrite m 63#6 b) 0 64 = memRead (memWrite m' 63#6 b) 0 64 :=
  memRead_of_agreesBelow (agreesBelow_memWrite (a := 63#6) h b)

/-- Outside the storage the two next states are one, and so are their bytes below the new BUFLEN. -/
def SameBelowBuflen (t t' : State) : Prop :=
  { t' with buf := t.buf } = t ∧ AgreesBelow t.buflen.toNat t'.buf t.buf

theorem raises_withBuf {d : Except Reject Instr} {e : ErrCode} (h : Raises d s e) (m : Memory) :
    Raises d { s with buf := m } e := by
  cases h with
  | illegal r hp => exact .illegal r hp
  | afterFinal hi hp => exact .afterFinal hi hp
  | absorbOverflow b hp h63 ho => exact .absorbOverflow b hp h63 ho
  | finalOverflow hp ho => exact .finalOverflow hp ho

/-- No command reads a byte from BUFLEN up: with other storage there it takes the same step. -/
theorem commandStep_withBuf {d : Except Reject Instr} (h : CommandStep d s t) (hm : AgreesBelow s.buflen.toNat m s.buf) :
    ∃ t', CommandStep d { s with buf := m } t' ∧ SameBelowBuflen t t' := by
  cases h with
  | reset => exact ⟨_, .reset _, rfl, agreesBelow_refl _ _⟩
  | ignored hd hp => exact ⟨_, .ignored hd hp, rfl, hm⟩
  | faulted h => exact ⟨_, .faulted (raises_withBuf h m), rfl, hm⟩
  | buffered b hp hroom =>
    refine ⟨_, .buffered b hp hroom, rfl, ?_⟩
    rw [bufferByte_buflen_toNat b hroom]
    exact agreesBelow_memWrite hm b
  | blockAbsorbed b blk hp h63 ho hr =>
    have hr' : memRead (memWrite m 63#6 b) 0 64 = .ok blk := (memRead_fullBlock_of_agreesBelow (h63 ▸ hm) b).trans hr
    exact ⟨_, .blockAbsorbed b blk hp h63 ho hr', rfl, agreesBelow_refl _ _⟩
  | finalized B hp ho hr =>
    exact ⟨_, .finalized B hp ho ((memRead_of_agreesBelow hm).trans hr), rfl, agreesBelow_refl _ _⟩

theorem bufferedBytes_length (hb : BufferCoherent s) : (bufferedBytes s).length = s.buflen.toNat := by
  rw [bufferedBytes, List.length_map, ← List.length_map (f := Prod.fst), hb, List.length_range]

theorem memByte_isSome_iff_of_coherent (hb : BufferCoherent s) (a : Nat) :
    (memByte s.buf a).isSome = true ↔ a < s.buflen.toNat := by
  rw [memByte_isSome_iff, hb, List.mem_range]

/-- Cells listed behind a coherent buffer do not show below BUFLEN, where each byte has a value already. -/
theorem agreesBelow_append (hb : BufferCoherent s) (stale : Memory) :
    AgreesBelow s.buflen.toNat (s.buf ++ stale) s.buf := by
  intro a ha
  obtain ⟨v, hv⟩ := Option.isSome_iff_exists.mp ((memByte_isSome_iff_of_coherent hb a).mpr ha)
  rw [memByte_append, hv, Option.some_or]

/-- Settles O21: the stale cells leave the bytes below BUFLEN, and no more is read. -/
theorem commandsReadNoByteAtOrAboveBuflen : Obligations.CommandsReadNoByteAtOrAboveBuflen := by
  intro s stale hs _
  have hbelow := agreesBelow_append hs.buffer stale
  refine ⟨bufferedBytes_length hs.buffer, fun a ha => ?_, ?_, fun b h63 => ?_, fun i => ?_⟩
  · rw [← Option.not_isSome_iff_eq_none, memByte_isSome_iff_of_coherent hs.buffer]
    omega
  · rw [memRead_of_agreesBelow hbelow, memRead_buflen hs.buffer]
  · exact (memRead_fullBlock_of_agreesBelow (h63 ▸ hbelow) b).trans (memRead_fullBlock hs.buffer h63 b)
  · obtain ⟨t, ht⟩ := exec_progress i hs.buffer
    obtain ⟨t', ht', heq, hbytes⟩ := commandStep_withBuf (commandStep_of_exec ht) hbelow
    exact ⟨t, t', ht, exec_of_commandStep ht', heq, hbytes⟩

end

end Sys2Proof.Machine
end

section
/-! PROOFS. I5 of 10_state.md R32 under ABSORB: how the full blocks and the rest of a message grow by one byte (20_memory.md R38),
and that CV, BLKCNT and BUF follow. -/

namespace Sys2Proof.Machine

variable {s : State} {m : ByteString} {b : Byte}

/-! ### Blocks and rest of a message one byte longer -/

theorem blockOfBytes_congr {f g : Nat → Byte} (h : ∀ k, k < 64 → f k = g k) : blockOfBytes f = blockOfBytes g :=
  block_ext_bytes fun k hk => by rw [byteOf_blockOfBytes f hk, byteOf_blockOfBytes g hk, h k hk]

/-- Bytes appended to a message do not touch the full blocks it already has. -/
theorem fullBlocks_of_append (m bs : ByteString) :
    (List.range (m.length / 64)).map (fun j => blockOfBytes fun k => (m ++ bs).getD (64 * j + k) 0) = fullBlocks m := by
  refine List.map_congr_left fun j hj => blockOfBytes_congr fun k hk => ?_
  have hj := List.mem_range.mp hj
  exact List.getD_append m bs 0 _ (by omega)

theorem restBytes_length (m : ByteString) : (restBytes m).length = m.length % 64 := by
  rw [restBytes, List.length_drop]
  omega

/-- The bytes from the last block boundary of `m` on, once `b` follows. -/
theorem drop_append_singleton (m : ByteString) (b : Byte) :
    (m ++ [b]).drop (64 * (m.length / 64)) = restBytes m ++ [b] :=
  List.drop_append_of_le_length (Nat.mul_div_le _ _)

section
/-! `b` does not complete a block. -/

variable (h : m.length % 64 < 63)
include h

theorem length_succ_div_of_room : (m ++ [b]).length / 64 = m.length / 64 := by
  rw [List.length_append, List.length_singleton]
  omega

theorem fullBlocks_append_of_room : fullBlocks (m ++ [b]) = fullBlocks m := by
  rw [← fullBlocks_of_append m [b], fullBlocks, length_succ_div_of_room h]

theorem restBytes_append_of_room : restBytes (m ++ [b]) = restBytes m ++ [b] := by
  rw [restBytes, length_succ_div_of_room h, drop_append_singleton]

end

section
/-! `b` completes a block. -/

variable (h : m.length % 64 = 63)
include h

theorem length_succ_div_of_full : (m ++ [b]).length / 64 = m.length / 64 + 1 := by
  rw [List.length_append, List.length_singleton]
  omega

theorem fullBlocks_append_of_full : fullBlocks (m ++ [b]) = fullBlocks m ++ [blockOfString (restBytes m ++ [b])] := by
  have hlast : (blockOfBytes fun k => (m ++ [b]).getD (64 * (m.length / 64) + k) 0) = blockOfString (restBytes m ++ [b]) :=
    blockOfBytes_congr fun k _ => by
      rw [← drop_append_singleton, List.getD_eq_getElem?_getD, List.getD_eq_getElem?_getD, List.getElem?_drop]
  rw [fullBlocks, length_succ_div_of_full h, List.range_succ, List.map_append, fullBlocks_of_append, List.map_singleton, hlast]

theorem restBytes_append_of_full : restBytes (m ++ [b]) = [] := by
  rw [← List.length_eq_zero_iff, restBytes_length, List.length_append, List.length_singleton]
  omega

end

theorem absorbBlocks_append (h : Block) (blks : List Block) (blk : Block) :
    absorbBlocks h (blks ++ [blk]) = compress (absorbBlocks h blks) blk :=
  List.foldl_append

/-! ### ABSORB in a state that holds a message -/

theorem absorbed_buflen (h : Absorbed m s) : s.buflen.toNat = m.length % 64 := by
  have := h.length
  have := s.buflen.isLt
  omega

theorem absorbed_blkcnt (h : Absorbed m s) : s.blkcnt.toNat = m.length / 64 := by
  have := h.length
  have := s.buflen.isLt
  omega

theorem absorbed_cvBlock (h : Absorbed m s) : cvBlock s = absorbBlocks ivBlock (fullBlocks m) := by
  rw [cvBlock, h.cv, blockOfWords_wordsOfBlock]

theorem absorbed_bufferByte (h : Absorbed m s) (b : Byte) (hroom : s.buflen.toNat < 63) :
    Absorbed (m ++ [b]) (bufferByte b s) := by
  have hmod : m.length % 64 < 63 := absorbed_buflen h ▸ hroom
  refine ⟨h.phase, h.errcode, ?_, ?_, bufferCoherent_bufferByte b h.buffer hroom, ?_⟩
  · rw [List.length_append, List.length_singleton, h.length, bufferByte_buflen_toNat b hroom, bufferByte_blkcnt]
    omega
  · rw [bufferByte_cv, h.cv, fullBlocks_append_of_room hmod]
  · rw [restBytes_append_of_room hmod, ← h.bytes, bufferedBytes, bufferByte_buf_of_coherent b h.buffer, List.map_append]
    rfl

theorem absorbed_absorbFullBlock (h : Absorbed m s) (b : Byte) (h63 : s.buflen.toNat = 63)
    (hfits : s.blkcnt.toNat + 1 < 2 ^ 64) :
    Absorbed (m ++ [b]) (absorbFullBlock (blockOfString (bufferedBytes s ++ [b])) s) := by
  have hmod : m.length % 64 = 63 := absorbed_buflen h ▸ h63
  refine ⟨h.phase, h.errcode, ?_, ?_, rfl, ?_⟩
  · rw [List.length_append, List.length_singleton, h.length, absorbFullBlock_blkcnt_toNat _ hfits, h63]
    rfl
  · rw [absorbFullBlock_cv, absorbed_cvBlock h, h.bytes, fullBlocks_append_of_full hmod, absorbBlocks_append]
  · rw [restBytes_append_of_full hmod]
    rfl

/-- ABSORB in a state that holds `m`, where the block count fits. -/
theorem exec_absorb_of_absorbed (h : Absorbed m s) (b : Byte) (hcount : (m.length + 1) / 64 < 2 ^ 64) :
    ∃ t, exec (.absorb b) s = .next t ∧ Absorbed (m ++ [b]) t ∧ t.moves = s.moves := by
  rw [exec_absorb_of_active h.phase]
  by_cases hroom : s.buflen.toNat < 63
  · exact ⟨_, absorbActive_of_room b hroom, absorbed_bufferByte h b hroom, rfl⟩
  · have h63 : s.buflen.toNat = 63 := by
      have := s.buflen.isLt
      omega
    have hfits : s.blkcnt.toNat + 1 < 2 ^ 64 := by
      have := h.length
      omega
    have ho : counterOverflows s 1 = false := (counterOverflows_eq_false_iff 1).mpr hfits
    exact ⟨_, absorbActive_of_fullBlock b h.buffer h63 ho, absorbed_absorbFullBlock h b h63 hfits, rfl⟩

/-- Settles O49: either the byte is buffered and no block is complete, or it completes the block that is folded into CV. -/
theorem absorbExtendsTheMessage : Obligations.AbsorbExtendsTheMessage :=
  fun _ b _ h hcount => exec_absorb_of_absorbed h b hcount

end Sys2Proof.Machine
end

section
/-! PROOFS. Memory (20_memory.md): reads of the ports have no side effect (R43), every step keeps the buffer's canonical form
(R33), and the digest is bytes 32 to 63 of the output state (R37, 41_compression_output.md R84, R85). -/

namespace Sys2Proof.Machine

variable {s t : State}

/-! ### Reading the ports -/

section

variable {rest : List HostMove}

/-- The ports do not show the host's own side: what STATUS reads does not depend on it. -/
theorem statusOf_withHost (s : State) (ms : List HostMove) (r : Reply) :
    statusOf { s with moves := ms, reply := r } = statusOf s :=
  rfl

theorem digestPort_withHost (s : State) (ms : List HostMove) (r : Reply) :
    digestPort { s with moves := ms, reply := r } = digestPort s :=
  rfl

theorem step_of_readStatus (h : s.moves = .readStatus :: rest) :
    step s = .next { s with moves := rest, reply := .status (statusOf s) } :=
  step_of_moves h

theorem step_of_readDigest (h : s.moves = .readDigest :: rest) :
    step s = .next { s with moves := rest, reply := .digest (digestPort s) } :=
  step_of_moves h

theorem readStatus_repeats (h : s.moves = .readStatus :: .readStatus :: rest) :
    ∃ t u, step s = .next t ∧ step t = .next u ∧ u.reply = t.reply :=
  ⟨_, _, step_of_readStatus h, step_of_readStatus rfl, congrArg Reply.status (statusOf_withHost s _ _)⟩

theorem readDigest_repeats (h : s.moves = .readDigest :: .readDigest :: rest) :
    ∃ t u, step s = .next t ∧ step t = .next u ∧ u.reply = t.reply :=
  ⟨_, _, step_of_readDigest h, step_of_readDigest rfl, congrArg Reply.digest (digestPort_withHost s _ _)⟩

end

/-- Settles O13: a read writes only the host's side, which the ports do not show, so the next read finds the same value. -/
theorem portReadsChangeNothing : Obligations.PortReadsChangeNothing := by
  refine fun s rest => ⟨step_of_readStatus, fun hm hp => ?_, fun hm hp => ?_, readStatus_repeats, readDigest_repeats⟩
  · rw [step_of_readDigest hm, digestPort_of_finalized hp]
  · rw [step_of_readDigest hm, digestPort_of_not_finalized hp]

/-! ### The buffer's canonical form -/

/-- BUF is left alone, written at BUFLEN, or emptied. -/
theorem commandStep_keeps_wf {d : Except Reject Instr} (h : CommandStep d s t) (hs : Memory.wf s.buf = true) :
    Memory.wf t.buf = true := by
  cases h with
  | ignored | faulted => exact hs
  | buffered b => exact memWrite_wf hs s.buflen b
  | reset | blockAbsorbed | finalized => exact wf_nil

theorem hostMove_keeps_wf {mv : HostMove} (h : hostMove mv s = .next t) (hs : Memory.wf s.buf = true) :
    Memory.wf t.buf = true := by
  cases mv with
  | present w => exact commandStep_keeps_wf (commandStep_of_presentWord h) hs
  | readStatus | readDigest =>
    cases h
    exact hs
  | hardwareReset =>
    cases h
    exact wf_nil

/-- Settles O34: of the host's moves only a presented word and a reset write BUF. -/
theorem everyStepKeepsTheBufferCanonical : Obligations.EveryStepKeepsTheBufferCanonical := by
  intro s t hs h
  rcases step_next h with ⟨-, rfl⟩ | ⟨mv, rest, -, hmv⟩
  · exact hs
  · exact hostMove_keeps_wf hmv hs

/-! ### The output transform and the digest -/

theorem byteOf_outputTransform (h : Block) {k : Nat} (hk : k < 64) :
    byteOf (outputTransform h) k = byteOf h k ^^^ byteOf (permP h) k :=
  byteOf_blockXor h (permP h) hk

theorem digestOf_toList (o : Block) : (digestOf o).toList = (List.range 32).map fun j => byteOf o (32 + j) :=
  rfl

/-- Bytes 32 to 63 are columns 4 to 7, eight bytes each, and a column's bytes are those of its word (R37). -/
theorem digestOf_toList_eq_words (o : Block) :
    (digestOf o).toList = le64 (wordOf o 4) ++ le64 (wordOf o 5) ++ le64 (wordOf o 6) ++ le64 (wordOf o 7) := by
  have hcolumns : (digestOf o).toList =
      (List.range 4).flatMap fun c => (List.range 8).map fun r => byteOf o (8 * (4 + c) + r) := rfl
  simp only [hcolumns, ← le64_wordOf]
  rfl

/-- Settles O48: the digest as the slice of the output state, and that slice word by word. -/
theorem outputTransformAndDigestByByte : Obligations.OutputTransformAndDigestByByte :=
  ⟨fun h _ hk => byteOf_outputTransform h hk, fun o => ⟨digestOf_toList o, digestOf_toList_eq_words o⟩⟩

end Sys2Proof.Machine
end

section
/-! PROOFS. The decoder and the encoder as inverses of each other, and what follows from that for the opcode map, the masks, the
well-formed and the illegal words (30_encoding.md R51 to R56). -/

namespace Sys2Proof.Machine

/-! ### A word and its two fields -/

/-- R52: OPC above IMM8 is the word. -/
theorem formatOf_append (w : CmdWord) : (formatOf w).opc ++ (formatOf w).imm8 = w :=
  (BitVec.extractLsb'_append_extractLsb'_eq_extractLsb' (by rfl)).trans BitVec.extractLsb'_eq_self

theorem formatOf_encode (i : Instr) : formatOf (encode i) = formatOfInstr i :=
  Laws.EncodingFields.fields_of_append _ _

theorem eq_encode_iff_formatOf {w : CmdWord} {i : Instr} : w = encode i ↔ formatOf w = formatOfInstr i := by
  constructor
  · rintro rfl
    exact formatOf_encode i
  · intro h
    rw [← formatOf_append w, h, encode]

/-- The fields as numbers: quotient and remainder by 256. -/
theorem formatOf_opc_toNat (w : CmdWord) : (formatOf w).opc.toNat = w.toNat / 256 := by
  have := w.isLt
  have hlt : w.toNat / 256 < 256 := by omega
  rw [formatOf, BitVec.extractLsb'_toNat, Nat.shiftRight_eq_div_pow]
  exact Nat.mod_eq_of_lt hlt

theorem formatOf_imm8_toNat (w : CmdWord) : (formatOf w).imm8.toNat = w.toNat % 256 := by
  rw [formatOf, BitVec.extractLsb'_toNat, Nat.shiftRight_zero]

/-! ### Decode and encode are inverse -/

theorem formatOf_of_decode_absorb {w : CmdWord} {b : BitVec 8} (h : decode w = .ok (.absorb b)) :
    (formatOf w).opc = 0x02#8 ∧ (formatOf w).imm8 = b := by
  unfold decode at h
  split_ifs at h with _ hopc
  · cases h
  · cases h
    exact ⟨hopc, rfl⟩
  · cases h

/-- Every accepted word is the one the encoder makes (R54): ABSORB's has its own immediate, the other two are single words. -/
theorem encode_of_decode {w : CmdWord} {i : Instr} (h : decode w = .ok i) : encode i = w := by
  cases i with
  | reset => exact (decode_eq_reset_iff.mp h).symm
  | final => exact (decode_eq_final_iff.mp h).symm
  | absorb b =>
    obtain ⟨hopc, hb⟩ := formatOf_of_decode_absorb h
    rw [← formatOf_append w, hopc, hb]
    rfl

theorem decode_eq_ok_iff {w : CmdWord} {i : Instr} : decode w = .ok i ↔ w = encode i :=
  ⟨fun h => (encode_of_decode h).symm, fun h => h ▸ decode_encode i⟩

theorem exists_decode_absorb_iff {w : CmdWord} : (∃ b, decode w = .ok (.absorb b)) ↔ (formatOf w).opc = 0x02#8 := by
  constructor
  · rintro ⟨b, h⟩
    exact (formatOf_of_decode_absorb h).1
  · intro h
    have hfields : formatOf w = formatOfInstr (.absorb (formatOf w).imm8) := by rw [formatOfInstr, ← h]
    exact ⟨_, decode_eq_ok_iff.mpr (eq_encode_iff_formatOf.mpr hfields)⟩

theorem exists_decode_error_iff {w : CmdWord} : (∃ r, decode w = .error r) ↔ ¬ ∃ i, decode w = .ok i := by
  cases decode w <;> simp

/-- The table's numbering of a word's bits is the word's own. -/
theorem decodeTableWord_toNat (w : CmdWord) : decodeTableWord 16 w.toNat = (decode w).toOption := by
  rw [decodeTableWord, if_pos le_rfl, wordOfTable_toNat]
  cases decode w <;> rfl

theorem decodeTableWord_encode (i : Instr) : decodeTableWord 16 (encode i).toNat = some i := by
  rw [decodeTableWord_toNat, decode_encode]
  rfl

/-- Settles O3: `decode_encode`, and the table's numbering read by the same decoder. -/
theorem decodeOfEncodeIsTheInstruction : Obligations.DecodeOfEncodeIsTheInstruction :=
  fun i _ => ⟨decode_encode i, decodeTableWord_encode i⟩

/-- Settles O4: the encoder undoes the decoder. -/
theorem encodeOfDecodeIsTheWord : Obligations.EncodeOfDecodeIsTheWord :=
  fun _ _ => encode_of_decode

/-- Settles O1: a word that decodes is the word of its instruction, which the last clause excludes one constructor at a time. -/
theorem decodeFollowsTheOpcodeMap : Obligations.DecodeFollowsTheOpcodeMap := by
  refine ⟨decode_encode .reset, fun b => decode_encode (.absorb b), decode_encode .final, ?_⟩
  intro w hreset hopc hfinal
  rw [exists_decode_error_iff]
  rintro ⟨i, h⟩
  cases i with
  | reset => exact hreset (decode_eq_reset_iff.mp h)
  | absorb b => exact hopc (exists_decode_absorb_iff.mp ⟨b, h⟩)
  | final => exact hfinal (decode_eq_final_iff.mp h)

/-! ### Masks -/

theorem and_opcodeMask (w : CmdWord) : w &&& 0xFF00#16 = (formatOf w).opc ++ 0x00#8 := by
  calc w &&& 0xFF00#16
      = ((formatOf w).opc ++ (formatOf w).imm8) &&& (BitVec.allOnes 8 ++ 0x00#8) := by rw [formatOf_append]; rfl
    _ = (formatOf w).opc ++ 0x00#8 := by rw [BitVec.and_append, BitVec.and_allOnes, BitVec.and_zero]

theorem matches_absorb_iff (w : CmdWord) : w &&& 0xFF00#16 = 0x0200#16 ↔ (formatOf w).opc = 0x02#8 := by
  rw [and_opcodeMask]
  constructor
  · intro h
    have hopc : (formatOf ((formatOf w).opc ++ 0x00#8)).opc = 0x02#8 := congrArg (fun v => (formatOf v).opc) h
    rwa [Laws.EncodingFields.fields_of_append] at hopc
  · intro h
    rw [h]
    rfl

theorem encode_absorb_toNat (b : BitVec 8) : (encode (.absorb b)).toNat = 0x0200 + b.toNat :=
  toNat_append_eq_add 0x02#8 b

/-- Settles O2: the full mask keeps the word, and the mask `0xFF00` keeps the opcode. -/
theorem commandWordsMatchTheirMasks : Obligations.CommandWordsMatchTheirMasks := by
  have hfull (w : CmdWord) : w &&& 0xFFFF#16 = w := BitVec.and_allOnes
  refine ⟨rfl, encode_absorb_toNat, rfl, fun w => ?_, fun w => ?_, fun w => ?_⟩
  · rw [hfull, decode_eq_reset_iff]
  · rw [matches_absorb_iff, exists_decode_absorb_iff]
  · rw [hfull, decode_eq_final_iff]

/-! ### Well-formed and illegal words -/

theorem wf_formatOfInstr (i : Instr) : (formatOfInstr i).wf = true := by
  cases i with
  | reset => exact Laws.EncodingFields.reset.2
  | absorb b => exact (Laws.EncodingFields.absorb b).2
  | final => exact Laws.EncodingFields.final.2

theorem formatC_wf_iff {f : FormatC} :
    f.wf = true ↔ (1 ≤ f.opc.toNat ∧ f.opc.toNat ≤ 3) ∧ (f.opc.toNat = 2 ∨ f.imm8.toNat = 0) := by
  simp [FormatC.wf, FormatC.opcodeDefined, FormatC.immAllowed, ← BitVec.toNat_inj]

/-- The fields that pass the checks of R53 and R56 are those of the opcode map (R54). -/
theorem formatC_wf_iff_exists_instr {f : FormatC} : f.wf = true ↔ ∃ i, f = formatOfInstr i := by
  constructor
  · intro h
    have hcase : f.opc = 0x02#8 ∨ (f.opc = 0x01#8 ∧ f.imm8 = 0x00#8) ∨ (f.opc = 0x03#8 ∧ f.imm8 = 0x00#8) := by
      rw [formatC_wf_iff] at h
      simp only [← BitVec.toNat_inj, BitVec.toNat_ofNat]
      omega
    obtain ⟨opc, imm8⟩ := f
    rcases hcase with rfl | ⟨rfl, rfl⟩ | ⟨rfl, rfl⟩
    · exact ⟨.absorb imm8, rfl⟩
    · exact ⟨.reset, rfl⟩
    · exact ⟨.final, rfl⟩
  · rintro ⟨i, rfl⟩
    exact wf_formatOfInstr i

/-- Settles O5: acceptance is having the fields of some instruction. -/
theorem decodeAcceptsJustWellFormedWords : Obligations.DecodeAcceptsJustWellFormedWords := by
  intro w
  simp only [decode_eq_ok_iff, eq_encode_iff_formatOf, formatC_wf_iff_exists_instr]

theorem decode_ok_iff_toNat {w : CmdWord} :
    (∃ i, decode w = .ok i) ↔ w.toNat = 0x0100 ∨ (0x0200 ≤ w.toNat ∧ w.toNat ≤ 0x0300) := by
  rw [decodeAcceptsJustWellFormedWords, formatC_wf_iff, formatOf_opc_toNat, formatOf_imm8_toNat]
  omega

theorem decode_error_iff_toNat {w : CmdWord} :
    (∃ r, decode w = .error r) ↔ w.toNat ≠ 0x0100 ∧ ¬ (0x0200 ≤ w.toNat ∧ w.toNat ≤ 0x0300) := by
  rw [exists_decode_error_iff, decode_ok_iff_toNat, not_or]

theorem decodeTableWord_isNone_iff {n : Nat} (hn : n < 65536) :
    (decodeTableWord 16 n).isNone = true ↔ n ≠ 0x0100 ∧ ¬ (0x0200 ≤ n ∧ n ≤ 0x0300) := by
  obtain ⟨w, rfl⟩ : ∃ w : CmdWord, w.toNat = n := ⟨BitVec.ofNat 16 n, Nat.mod_eq_of_lt hn⟩
  rw [decodeTableWord_toNat, ← decode_error_iff_toNat]
  cases decode w <;> simp [Except.toOption]

/-- R56: of the 65536 words all but the 258 commands are illegal. -/
theorem illegalWords_length :
    ((List.range 65536).filter fun n => (decodeTableWord 16 n).isNone).length = 65278 := by
  have hset : ((List.range 65536).filter fun n => (decodeTableWord 16 n).isNone).toFinset =
      Finset.range 65536 \ insert 0x0100 (Finset.Icc 0x0200 0x0300) := by
    ext n
    simp only [List.mem_toFinset, List.mem_filter, List.mem_range, Finset.mem_sdiff, Finset.mem_range, Finset.mem_insert,
      Finset.mem_Icc, not_or]
    exact and_congr_right decodeTableWord_isNone_iff
  have hsub : insert 0x0100 (Finset.Icc 0x0200 0x0300) ⊆ Finset.range 65536 := by
    intro n hn
    simp only [Finset.mem_insert, Finset.mem_Icc, Finset.mem_range] at hn ⊢
    omega
  rw [← List.toFinset_card_of_nodup (List.nodup_range.filter _), hset, Finset.card_sdiff_of_subset hsub,
    Finset.card_insert_of_notMem (by simp), Nat.card_Icc, Finset.card_range]

/-- R56, R98, R103: what presenting an illegal word does. -/
theorem presentWord_of_illegal {w : CmdWord} {r : Reject} (h : decode w = .error r) (s : State) :
    (s.phase ≠ .fault → presentWord w s = .next (raiseFault .illegalCmd s)) ∧
      (s.phase = .fault → presentWord w s = .next s) := by
  rw [presentWord_of_decode_error h]
  exact ⟨fun hp => by rw [illegalWord_of_not_fault hp], fun hp => by rw [illegalWord_of_fault hp]⟩

/-- Settles O6: the accepted words as numbers, their complement counted, and the step of `illegalWord` by phase. -/
theorem illegalWordsAndTheirEffect : Obligations.IllegalWordsAndTheirEffect := by
  refine ⟨fun w => ?_, illegalWords_length, fun w r s h => presentWord_of_illegal h s⟩
  rw [decode_error_iff_toNat]
  omega

/-- Settles O7: one word for each outcome of `decode` and each class of illegal word, evaluated. -/
theorem wordsOfTheMapDecode : Obligations.WordsOfTheMapDecode :=
  ⟨rfl, rfl, rfl, rfl, rfl, rfl, rfl, rfl⟩

end Sys2Proof.Machine
end

section
/-! PROOFS. The assembler reads back the lines the model writes (30_encoding.md R58 to R60; the form of the lines, log 7). -/

namespace Sys2Proof.Machine

/-! ### Lines of two words -/

/-- A character with which neither a comment nor a quoted text begins: no quote and no semicolon. -/
def isOrdinary (c : Char) : Bool :=
  c != '\'' && c != '"' && c != ';'

theorem isOrdinary_iff (c : Char) : isOrdinary c = true ↔ c ≠ '\'' ∧ c ≠ '"' ∧ c ≠ ';' := by
  simp [isOrdinary, and_assoc]

/-- A character that no part of the line reader treats specially. -/
def isPlain (c : Char) : Bool :=
  !isBlank c && isOrdinary c

theorem isPlain_iff {c : Char} : isPlain c = true ↔ isBlank c = false ∧ isOrdinary c = true := by
  simp [isPlain]

theorem stripComment_eq_self {cs : List Char} (h : ∀ c ∈ cs, isOrdinary c = true) : stripComment false cs = cs := by
  induction cs with
  | nil => rfl
  | cons c cs ih =>
    obtain ⟨hc, hcs⟩ := List.forall_mem_cons.mp h
    obtain ⟨hsingle, hdouble, hsemicolon⟩ := (isOrdinary_iff c).mp hc
    rw [stripComment, if_neg hsemicolon, beq_false_of_ne hdouble, ih hcs]
    rintro _ _ rfl
    exact absurd rfl hsingle

theorem trimBlanks_eq_self {cs : List Char} (hfirst : ∀ c ∈ cs.head?, isBlank c = false)
    (hlast : ∀ c ∈ cs.getLast?, isBlank c = false) : trimBlanks cs = cs := by
  have hdrop {l : List Char} (h : ∀ c ∈ l.head?, isBlank c = false) : l.dropWhile isBlank = l := by
    cases l with
    | nil => rfl
    | cons c l => exact List.dropWhile_cons_of_neg (by rw [h c rfl]; decide)
  rw [trimBlanks, hdrop hfirst, hdrop (by simpa using hlast), List.reverse_reverse]

section

variable {mnemonic operand : List Char} {st : AsmStmt}
  (hm : ∀ c ∈ mnemonic, isPlain c = true) (ho : ∀ c ∈ operand, isPlain c = true)

include ho in
theorem trimBlanks_of_plain : trimBlanks operand = operand :=
  trimBlanks_eq_self (fun c hc => (isPlain_iff.mp (ho c (List.mem_of_mem_head? hc))).1)
    (fun c hc => (isPlain_iff.mp (ho c (List.mem_of_mem_getLast? hc))).1)

include hm ho in
/-- A line of two plain words with a space between them is the statement of these words. -/
theorem assembleLine_of_words (hm0 : mnemonic ≠ []) (ho0 : operand ≠ []) (hst : parseStmt mnemonic operand = .ok st) :
    assembleLine (mnemonic ++ ' ' :: operand) = .ok (expandStmt st) := by
  have hstrip : stripComment false (mnemonic ++ ' ' :: operand) = mnemonic ++ ' ' :: operand := by
    have hordinary {cs : List Char} (h : ∀ c ∈ cs, isPlain c = true) : ∀ c ∈ cs, isOrdinary c = true :=
      fun c hc => (isPlain_iff.mp (h c hc)).2
    exact stripComment_eq_self
      (List.forall_mem_append.mpr ⟨hordinary hm, List.forall_mem_cons.mpr ⟨rfl, hordinary ho⟩⟩)
  have htrim : trimBlanks (mnemonic ++ ' ' :: operand) = mnemonic ++ ' ' :: operand := by
    apply trimBlanks_eq_self
    · intro c hc
      rw [List.head?_append_of_ne_nil _ hm0] at hc
      exact (isPlain_iff.mp (hm c (List.mem_of_mem_head? hc))).1
    · intro c hc
      rw [← List.singleton_append, ← List.append_assoc, List.getLast?_append_of_ne_nil _ ho0] at hc
      exact (isPlain_iff.mp (ho c (List.mem_of_mem_getLast? hc))).1
  have htake : (mnemonic ++ ' ' :: operand).takeWhile (fun c => !isBlank c) = mnemonic := by
    rw [List.takeWhile_append_of_pos fun c hc => by rw [(isPlain_iff.mp (hm c hc)).1]; rfl]
    exact List.append_nil _
  have hoperand : trimBlanks (' ' :: operand) = operand := trimBlanks_of_plain ho
  simp [assembleLine, hstrip, htrim, htake, hm0, hoperand, hst]

end

/-! ### Hexadecimal digits -/

theorem hexDigit_hexChar {n : Nat} (hn : n < 16) : hexDigit (hexChar n) = some n := by
  revert n
  decide

theorem isPlain_hexChar {n : Nat} (hn : n < 16) : isPlain (hexChar n) = true := by
  revert n
  decide

/-- Two hexadecimal digits hold a byte. -/
theorem byte_digits_lt (b : Byte) : b.toNat / 16 < 16 ∧ b.toNat % 16 < 16 := by
  have := b.isLt
  omega

theorem hexText_cons (b : Byte) (bs : ByteString) :
    hexText (b :: bs) = hexChar (b.toNat / 16) :: hexChar (b.toNat % 16) :: hexText bs := rfl

theorem isPlain_of_mem_hexText {bs : ByteString} : ∀ c ∈ hexText bs, isPlain c = true := by
  intro c hc
  obtain ⟨b, -, hc⟩ := List.mem_flatMap.mp hc
  obtain ⟨hhi, hlo⟩ := byte_digits_lt b
  rcases List.mem_pair.mp hc with rfl | rfl
  · exact isPlain_hexChar hhi
  · exact isPlain_hexChar hlo

theorem byte_of_digits (b : Byte) : BitVec.ofNat 8 (16 * (b.toNat / 16) + b.toNat % 16) = b := by
  rw [Nat.div_add_mod, BitVec.ofNat_toNat, BitVec.setWidth_eq]

theorem hexBytes_hexText (bs : ByteString) : hexBytes (hexText bs) = .ok bs := by
  induction bs with
  | nil => rfl
  | cons b bs ih =>
    obtain ⟨hhi, hlo⟩ := byte_digits_lt b
    simp only [hexText_cons, hexBytes, hexDigit_hexChar hhi, hexDigit_hexChar hlo, ih, byte_of_digits]

/-! ### Commands -/

theorem digitsValue_hexText (b : Byte) : digitsValue hexDigit 16 0 (hexText [b]) = some b.toNat := by
  obtain ⟨hhi, hlo⟩ := byte_digits_lt b
  have hvalue : (0 * 16 + b.toNat / 16) * 16 + b.toNat % 16 = b.toNat := by omega
  rw [hexText_cons]
  simp only [digitsValue, hexDigit_hexChar hhi, hexDigit_hexChar hlo, hvalue]
  rfl

theorem isPlain_hexOperand (b : Byte) : ∀ c ∈ '0' :: 'x' :: hexText [b], isPlain c = true :=
  List.forall_mem_cons.mpr ⟨by decide, List.forall_mem_cons.mpr ⟨by decide, isPlain_of_mem_hexText⟩⟩

/-- R58: `0x` and the two digits of a byte. -/
theorem byteOperand_hexText (b : Byte) : byteOperand ('0' :: 'x' :: hexText [b]) = .ok b := by
  have hvalue : byteLiteral ('0' :: 'x' :: hexText [b]) = some b.toNat := digitsValue_hexText b
  simp [byteOperand, trimBlanks_of_plain (isPlain_hexOperand b), hvalue, b.isLt]

theorem parseStmt_absorb {operand : List Char} {b : Byte} (h : byteOperand operand = .ok b) :
    parseStmt ['A', 'B', 'S', 'O', 'R', 'B'] operand = .ok (.command (.absorb b)) := by
  simp [parseStmt, h]

/-- Settles O53: RESET and FINAL are single words; ABSORB is two, the second its byte in two digits. -/
theorem commandLinesAssembleToTheirCommand : Obligations.CommandLinesAssembleToTheirCommand := by
  intro i
  cases i with
  | reset => rfl
  | absorb b =>
    exact assembleLine_of_words (List.all_eq_true.mp rfl) (isPlain_hexOperand b) (by simp) (by simp)
      (parseStmt_absorb (byteOperand_hexText b))
  | final => rfl

/-! ### UPDATE and HASH -/

/-- The operand `hex:` with the digits of `bs` (R59). -/
def hexOperand (bs : ByteString) : List Char :=
  ['h', 'e', 'x', ':'] ++ hexText bs

theorem isPlain_of_mem_hexOperand {bs : ByteString} : ∀ c ∈ hexOperand bs, isPlain c = true :=
  List.forall_mem_append.mpr ⟨List.all_eq_true.mp rfl, isPlain_of_mem_hexText⟩

theorem bytesOperand_hexOperand (bs : ByteString) : bytesOperand (hexOperand bs) = .ok bs :=
  hexBytes_hexText bs

theorem parseStmt_update {operand : List Char} {bs : ByteString} (h : bytesOperand operand = .ok bs) :
    parseStmt ['U', 'P', 'D', 'A', 'T', 'E'] operand = .ok (.update bs) := by
  simp [parseStmt, h]

theorem parseStmt_hash {operand : List Char} {bs : ByteString} (h : bytesOperand operand = .ok bs) :
    parseStmt ['H', 'A', 'S', 'H'] operand = .ok (.hash bs) := by
  simp [parseStmt, h]

theorem assembleLine_updateLine (bs : ByteString) : assembleLine (updateLine bs) = .ok (updateCommands bs) :=
  assembleLine_of_words (List.all_eq_true.mp rfl) isPlain_of_mem_hexOperand (by simp) (by simp [hexOperand])
    (parseStmt_update (bytesOperand_hexOperand bs))

theorem assembleLine_hashLine (bs : ByteString) : assembleLine (hashLine bs) = .ok (hashCommands bs) :=
  assembleLine_of_words (List.all_eq_true.mp rfl) isPlain_of_mem_hexOperand (by simp) (by simp [hexOperand])
    (parseStmt_hash (bytesOperand_hexOperand bs))

theorem assembleProgram_singleton {line : List Char} {is : List Instr} (h : assembleLine line = .ok is) :
    assembleProgram [line] = .ok (encodeCommands is) := by
  simp [assembleProgram, assembleLines, h]

/-- R60: the words of HASH. -/
theorem encodeCommands_hashCommands (bs : ByteString) :
    encodeCommands (hashCommands bs) = 0x0100#16 :: bs.map (fun b => 0x02#8 ++ b) ++ [0x0300#16] := by
  rw [encodeCommands, hashCommands, updateCommands, List.map_append, List.map_cons, List.map_map]
  rfl

/-- Settles O54: the digits of a byte string read back to it, and HASH puts RESET before and FINAL after its ABSORBs. -/
theorem pseudoInstructionsExpand : Obligations.PseudoInstructionsExpand := by
  refine fun bs => ⟨assembleLine_updateLine bs, ?_⟩
  rw [assembleProgram_singleton (assembleLine_hashLine bs), encodeCommands_hashCommands]

end Sys2Proof.Machine
end

section
/-! PROOFS. Arithmetic on bytes and the S-box (40_permutation.md R61 to R65). -/

namespace Sys2Proof.Machine

/-! ### `xtime` -/

/-- R62, second form: the bit shifted out is bit 7, and what `0x11B` has below it is `0x1B`. -/
theorem xtime_eq_shift_xor (a : Byte) : xtime a = (a <<< 1) ^^^ (if a.getLsbD 7 then 0x1B#8 else 0x00#8) := by
  have hlow : (a.setWidth 9 <<< 1).setWidth 8 = a <<< 1 := by
    ext i hi
    simp [BitVec.getElem_shiftLeft]
  have hcarry : (a.setWidth 9 <<< 1).getLsbD 8 = a.getLsbD 7 := by
    simp
  rw [xtime]
  simp only [hcarry, BitVec.setWidth_xor, hlow]
  cases a.getLsbD 7 with
  | false => exact BitVec.xor_zero.symm
  | true => rfl

theorem xor_xor_xor_comm {n : Nat} (a b c d : BitVec n) : a ^^^ b ^^^ (c ^^^ d) = a ^^^ c ^^^ (b ^^^ d) := by
  ac_rfl

/-- A constant XORed in under the XOR of two conditions is XORed in once under each. -/
theorem ite_xor_distrib {n : Nat} (x y : Bool) (c : BitVec n) :
    (if x ^^ y then c else 0#n) = (if x then c else 0#n) ^^^ (if y then c else 0#n) := by
  cases x <;> cases y <;> simp

theorem xtime_xor (a b : Byte) : xtime (a ^^^ b) = xtime a ^^^ xtime b := by
  simp only [xtime_eq_shift_xor, BitVec.shiftLeft_xor_distrib, BitVec.getLsbD_xor, ite_xor_distrib]
  exact xor_xor_xor_comm ..

/-- Settles O35: the second form, and five bytes evaluated. -/
theorem xtimeIsTheReducedShift : Obligations.XtimeIsTheReducedShift :=
  ⟨xtime_eq_shift_xor, by decide⟩

/-! ### Polynomials in `xtime` -/

/-- The maps composed of `xtime` and XOR, as R63 composes the multiplications. -/
inductive IsXtimePoly : (Byte → Byte) → Prop
  | id : IsXtimePoly fun a => a
  | xtime {f : Byte → Byte} (hf : IsXtimePoly f) : IsXtimePoly fun a => xtime (f a)
  | xor {f g : Byte → Byte} (hf : IsXtimePoly f) (hg : IsXtimePoly g) : IsXtimePoly fun a => f a ^^^ g a

namespace IsXtimePoly

variable {f g : Byte → Byte}

theorem map_xor (hf : IsXtimePoly f) (a b : Byte) : f (a ^^^ b) = f a ^^^ f b := by
  induction hf with
  | id => rfl
  | xtime _ ih => simp only [ih, xtime_xor]
  | xor _ _ ih ih' =>
    simp only [ih, ih']
    exact xor_xor_xor_comm ..

theorem map_zero (hf : IsXtimePoly f) : f 0 = 0 := by
  simpa using hf.map_xor 0 0

theorem map_xtime (hf : IsXtimePoly f) (a : Byte) : f (Machine.xtime a) = Machine.xtime (f a) := by
  induction hf with
  | id => rfl
  | xtime _ ih => simp only [ih]
  | xor _ _ ih ih' => simp only [ih, ih', xtime_xor]

theorem commute (hf : IsXtimePoly f) (hg : IsXtimePoly g) (a : Byte) : f (g a) = g (f a) := by
  induction hg with
  | id => rfl
  | xtime _ ih => simp only [hf.map_xtime, ih]
  | xor _ _ ih ih' => simp only [hf.map_xor, ih, ih']

theorem comp (hf : IsXtimePoly f) (hg : IsXtimePoly g) : IsXtimePoly fun a => f (g a) := by
  induction hf with
  | id => exact hg
  | xtime _ ih => exact .xtime ih
  | xor _ _ ih ih' => exact .xor ih ih'

theorem mul2 : IsXtimePoly mul2 := .xtime .id

theorem mul4 : IsXtimePoly mul4 := .xtime (.xtime .id)

theorem mul3 : IsXtimePoly mul3 := .xor mul2 .id

theorem mul5 : IsXtimePoly mul5 := .xor mul4 .id

theorem mul7 : IsXtimePoly mul7 := .xor (.xor mul4 mul2) .id

end IsXtimePoly

/-! ### The product of the field is linear in its first factor -/

/-- XOR passes through a fold whose step passes it. -/
theorem foldl_xor {n : Nat} {f g h : BitVec n → Nat → BitVec n}
    (hstep : ∀ p q i, h (p ^^^ q) i = f p i ^^^ g q i) (l : List Nat) (p q : BitVec n) :
    l.foldl h (p ^^^ q) = l.foldl f p ^^^ l.foldl g q := by
  induction l generalizing p q with
  | nil => rfl
  | cons i l ih => rw [List.foldl_cons, hstep, ih, List.foldl_cons, List.foldl_cons]

theorem polyMul_xor_left (a b c : Byte) : polyMul (a ^^^ b) c = polyMul a c ^^^ polyMul b c := by
  refine foldl_xor (fun p q i => ?_) _ 0 0
  rw [BitVec.setWidth_xor, BitVec.shiftLeft_xor_distrib]
  cases c.getLsbD i with
  | false => rfl
  | true =>
    exact xor_xor_xor_comm ..

theorem ite_xor_eq_xor_ite {n : Nat} (x : Bool) (p c : BitVec n) :
    (if x then p ^^^ c else p) = p ^^^ (if x then c else 0#n) := by
  cases x <;> simp

theorem polyReduce_xor (p q : BitVec 15) : polyReduce (p ^^^ q) = polyReduce p ^^^ polyReduce q := by
  rw [polyReduce, polyReduce, polyReduce, ← BitVec.setWidth_xor]
  refine congrArg (BitVec.setWidth 8) (foldl_xor (fun p q i => ?_) _ p q)
  simp only [ite_xor_eq_xor_ite, BitVec.getLsbD_xor, ite_xor_distrib]
  exact xor_xor_xor_comm ..

theorem gfMul_xor_left (a b c : Byte) : gfMul (a ^^^ b) c = gfMul a c ^^^ gfMul b c := by
  rw [gfMul, polyMul_xor_left, polyReduce_xor, gfMul, gfMul]

/-! ### The five multiplications -/

theorem gfMul_one (a : Byte) : gfMul 0x01#8 a = a := by
  revert a
  decide +kernel

theorem gfMul_two (a : Byte) : gfMul 0x02#8 a = mul2 a := by
  revert a
  decide +kernel

theorem gfMul_four (a : Byte) : gfMul 0x04#8 a = mul4 a := by
  revert a
  decide +kernel

theorem gfMul_three (a : Byte) : gfMul 0x03#8 a = mul3 a := by
  rw [show 0x03#8 = 0x02#8 ^^^ 0x01#8 from rfl, gfMul_xor_left, gfMul_two, gfMul_one, mul3]

theorem gfMul_five (a : Byte) : gfMul 0x05#8 a = mul5 a := by
  rw [show 0x05#8 = 0x04#8 ^^^ 0x01#8 from rfl, gfMul_xor_left, gfMul_four, gfMul_one, mul5]

theorem gfMul_seven (a : Byte) : gfMul 0x07#8 a = mul7 a := by
  rw [show 0x07#8 = 0x04#8 ^^^ 0x02#8 ^^^ 0x01#8 from rfl, gfMul_xor_left, gfMul_xor_left, gfMul_four, gfMul_two,
    gfMul_one, mul7]

/-- Settles O36: multiplication by 3, 5 and 7 is the XOR of those by 1, 2 and 4; every polynomial in `xtime` is linear. -/
theorem multiplicationsAreThoseOfTheField : Obligations.MultiplicationsAreThoseOfTheField := by
  refine ⟨fun a => ⟨rfl, rfl, rfl, rfl, rfl⟩,
    fun a => ⟨(gfMul_two a).symm, (gfMul_three a).symm, (gfMul_four a).symm, (gfMul_five a).symm, (gfMul_seven a).symm⟩,
    fun f hf => ?_⟩
  have hpoly : IsXtimePoly f := by
    simp only [List.mem_cons, List.not_mem_nil, or_false] at hf
    rcases hf with rfl | rfl | rfl | rfl | rfl
    · exact .mul2
    · exact .mul3
    · exact .mul4
    · exact .mul5
    · exact .mul7
  exact ⟨hpoly.map_zero, hpoly.map_xor⟩

/-! ### The S-box -/

/-- The inverse of the affine map of R64: rotations by 1, 3 and 6, and `0x05`. -/
def sboxAffineInverse (b : Byte) : Byte :=
  b.rotateLeft 1 ^^^ b.rotateLeft 3 ^^^ b.rotateLeft 6 ^^^ 0x05#8

theorem sboxAffineInverse_sboxAffine (b : Byte) : sboxAffineInverse (sboxAffine b) = b := by
  revert b
  decide +kernel

theorem sboxAffine_sboxAffineInverse (b : Byte) : sboxAffine (sboxAffineInverse b) = b := by
  revert b
  decide +kernel

/-- R64, R65: the field inverse, which the model computes as a power (log 6), is the one the table holds; all 256 entries. -/
theorem gfInv_eq (a : Byte) : gfInv a = sboxAffineInverse (sbox a) := by
  revert a
  decide +kernel

theorem gfMul_gfInv {a : Byte} (ha : a ≠ 0) : gfMul a (gfInv a) = 1 := by
  rw [gfInv_eq]
  revert a
  decide +kernel

theorem gfInv_involutive : Function.Involutive gfInv := by
  intro a
  rw [gfInv_eq, gfInv_eq]
  revert a
  decide +kernel

theorem sbox_eq_sboxAlgebraic (a : Byte) : sbox a = sboxAlgebraic a := by
  rw [sboxAlgebraic, gfInv_eq, sboxAffine_sboxAffineInverse]

theorem sbox_bijective : Function.Bijective sbox := by
  have haffine : Function.Bijective sboxAffine :=
    Function.bijective_iff_has_inverse.mpr ⟨_, sboxAffineInverse_sboxAffine, sboxAffine_sboxAffineInverse⟩
  rw [funext sbox_eq_sboxAlgebraic]
  exact haffine.comp gfInv_involutive.bijective

theorem sbox_ne_self_and_ne_complement (a : Byte) : sbox a ≠ a ∧ sbox a ≠ a ^^^ 0xFF#8 := by
  revert a
  decide +kernel

/-- Settles O37: the table is the affine map after the inverse, and both are bijections. -/
theorem sboxTableIsItsAlgebraicDefinition : Obligations.SboxTableIsItsAlgebraicDefinition :=
  ⟨gfInv_eq 0, fun _ => gfMul_gfInv, sbox_eq_sboxAlgebraic, sbox_bijective, sbox_ne_self_and_ne_complement⟩

end Sys2Proof.Machine
end

section
/-! PROOFS. The four stages by cell, and the order of the rounds (40_permutation.md R67 to R75). -/

namespace Sys2Proof.Machine

variable {r c : Nat}

/-! ### The stages by cell -/

@[simp] theorem cellOf_addRoundConstantP (M : Block) (i : Nat) (hr : r < 8) (hc : c < 8) :
    cellOf (addRoundConstantP M i) r c =
      if r = 0 then cellOf M r c ^^^ BitVec.ofNat 8 (16 * c ^^^ i) else cellOf M r c :=
  cellOf_blockOfCells _ hr hc

@[simp] theorem cellOf_addRoundConstantQ (M : Block) (i : Nat) (hr : r < 8) (hc : c < 8) :
    cellOf (addRoundConstantQ M i) r c =
      if r < 7 then cellOf M r c ^^^ 0xFF#8 else cellOf M r c ^^^ BitVec.ofNat 8 (0xFF ^^^ 16 * c ^^^ i) :=
  cellOf_blockOfCells _ hr hc

@[simp] theorem cellOf_subBytes (M : Block) (hr : r < 8) (hc : c < 8) : cellOf (subBytes M) r c = sbox (cellOf M r c) :=
  cellOf_blockOfCells _ hr hc

@[simp] theorem cellOf_shiftBytes (sigma : Nat → Nat) (M : Block) (hr : r < 8) (hc : c < 8) :
    cellOf (shiftBytes sigma M) r c = cellOf M r ((c + sigma r) % 8) :=
  cellOf_blockOfCells _ hr hc

/-! ### The round constants -/

/-- R67: column and round are the two halves of the constant. -/
theorem roundConstantP_eq_add : ∀ c < 8, ∀ i < 10, 16 * c ^^^ i = 0x10 * c + i := by
  decide

/-- R68: the complement of a byte is its distance from `0xFF`. -/
theorem roundConstantQ_eq_sub : ∀ c < 8, ∀ i < 10, 0xFF ^^^ 16 * c ^^^ i = 0xFF - (0x10 * c + i) := by
  decide

/-- Settles O38: the constants by cell, XOR being a sum here and the complement a difference. -/
theorem roundConstantsByByte : Obligations.RoundConstantsByByte := by
  intro M i r c hi hr hc
  constructor
  · refine (cellOf_addRoundConstantP M i hr hc).trans ?_
    rw [roundConstantP_eq_add c hc i hi]
    split
    · rfl
    · exact BitVec.xor_zero.symm
  · refine (cellOf_addRoundConstantQ M i hr hc).trans ?_
    rw [roundConstantQ_eq_sub c hc i hi]
    by_cases h7 : r = 7
    · rw [if_neg (by omega), if_pos h7, cellOf]
    · rw [if_pos (by omega), if_neg h7, cellOf]

/-! ### Rows -/

theorem range_rotate (n k : Nat) : (List.range n).rotate k = (List.range n).map fun c => (c + k) % n := by
  apply List.ext_getElem
  · simp
  · intro i h h'
    simp [List.getElem_rotate]

/-- R70, R71: a row of ShiftBytes is the row of the input rotated left. -/
theorem row_shiftBytes (sigma : Nat → Nat) (M : Block) (hr : r < 8) :
    (List.range 8).map (cellOf (shiftBytes sigma M) r) = ((List.range 8).map (cellOf M r)).rotate (sigma r) := by
  rw [← List.map_rotate, range_rotate, List.map_map]
  exact List.map_congr_left fun c hc => cellOf_shiftBytes sigma M hr (List.mem_range.mp hc)

theorem sigmaP_eq (hr : r < 8) : sigmaP r = r := by
  revert r
  decide

/-- Settles O39: each row by its cells, and the two vectors of shift amounts. -/
theorem subBytesAndShiftBytesByRow : Obligations.SubBytesAndShiftBytesByRow := by
  refine fun M r hr => ⟨?_, ?_, row_shiftBytes sigmaQ M hr⟩
  · exact List.map_congr_left fun c hc => cellOf_subBytes M hr (List.mem_range.mp hc)
  · rw [shiftBytesP, row_shiftBytes sigmaP M hr, sigmaP_eq hr]

/-! ### Rounds -/

/-- Settles O41: the definitions of a round, and the fold over the indices 0 to 9 written out. -/
theorem roundsAndTheirStagesInOrder : Obligations.RoundsAndTheirStagesInOrder :=
  ⟨fun _ _ => ⟨rfl, rfl⟩, fun _ => ⟨rfl, rfl⟩⟩

end Sys2Proof.Machine
end

section
/-! PROOFS. MixBytes as a circulant sum: the product with the matrix, and its linearity (40_permutation.md R72). -/

namespace Sys2Proof.Machine

variable {r c : Nat}

/-! ### Sums over XOR -/

/-- The XOR of `f 0` to `f (n - 1)`. -/
def xorSum (n : Nat) (f : Nat → Byte) : Byte :=
  (List.range n).foldl (fun x k => x ^^^ f k) 0

theorem xorSum_succ (n : Nat) (f : Nat → Byte) : xorSum (n + 1) f = xorSum n f ^^^ f n := by
  rw [xorSum, List.range_succ, List.foldl_append]
  rfl

theorem xorSum_congr {n : Nat} {f g : Nat → Byte} (h : ∀ k < n, f k = g k) : xorSum n f = xorSum n g := by
  induction n with
  | zero => rfl
  | succ n ih => rw [xorSum_succ, xorSum_succ, ih fun k hk => h k (by omega), h n n.lt_succ_self]

theorem xorSum_xor (n : Nat) (f g : Nat → Byte) : xorSum n (fun k => f k ^^^ g k) = xorSum n f ^^^ xorSum n g :=
  foldl_xor (fun p q i => xor_xor_xor_comm p q (f i) (g i)) _ 0 0

theorem IsXtimePoly.map_xorSum {f : Byte → Byte} (hf : IsXtimePoly f) (n : Nat) (g : Nat → Byte) :
    f (xorSum n g) = xorSum n fun k => f (g k) := by
  induction n with
  | zero => exact hf.map_zero
  | succ n ih => rw [xorSum_succ, hf.map_xor, ih, xorSum_succ]

/-- A cyclic shift of the terms does not change their sum. -/
theorem xorSum_rotate (n r : Nat) (f : Nat → Byte) : xorSum n (fun k => f ((k + r) % n)) = xorSum n f := by
  have hcomm : RightCommutative fun (x : Byte) k => x ^^^ f k :=
    ⟨fun x j k => by simp only [BitVec.xor_assoc, BitVec.xor_comm (f j)]⟩
  rw [xorSum, ← List.foldl_map (g := fun x k => x ^^^ f k), ← range_rotate]
  exact (List.rotate_perm _ r).foldl_eq 0

/-! ### MixBytes by cell -/

/-- The multiplication by the coefficient `b[j]` (R72). -/
def mixMul (j : Nat) : Byte → Byte :=
  [mul2, mul2, mul3, mul4, mul5, mul3, mul5, mul7].getD j id

theorem isXtimePoly_mixMul : ∀ j, IsXtimePoly (mixMul j)
  | 0 | 1 => .mul2
  | 2 | 5 => .mul3
  | 3 => .mul4
  | 4 | 6 => .mul5
  | 7 => .mul7
  | _ + 8 => .id

theorem gfMul_mixCoefficient (a : Byte) : ∀ j < 8, gfMul (mixCoefficient j) a = mixMul j a
  | 0, _ | 1, _ => gfMul_two a
  | 2, _ | 5, _ => gfMul_three a
  | 3, _ => gfMul_four a
  | 4, _ | 6, _ => gfMul_five a
  | 7, _ => gfMul_seven a

/-- The sum that R72 writes out, over the distance `j` of the rows. -/
theorem cellOf_mixBytes (M : Block) (hr : r < 8) (hc : c < 8) :
    cellOf (mixBytes M) r c = xorSum 8 fun j => mixMul j (cellOf M ((r + j) % 8) c) := by
  simp [mixBytes, hr, hc, xorSum, List.range_succ, mixMul, Nat.mod_eq_of_lt]

/-- The entry of the matrix at distance `j` from the diagonal is the coefficient `b[j]` (R72). -/
theorem mixMatrix_add {j : Nat} (hr : r < 8) (hj : j < 8) : mixMatrix r ((j + r) % 8) = mixCoefficient j := by
  rw [mixMatrix]
  congr 1
  omega

theorem cellOf_mixBytes_eq_product (M : Block) (hr : r < 8) (hc : c < 8) :
    cellOf (mixBytes M) r c = xorSum 8 fun k => gfMul (mixMatrix r k) (cellOf M k c) := by
  rw [cellOf_mixBytes M hr hc, ← xorSum_rotate 8 r fun k => gfMul (mixMatrix r k) (cellOf M k c)]
  refine xorSum_congr fun j hj => ?_
  rw [mixMatrix_add hr hj, gfMul_mixCoefficient _ j hj, Nat.add_comm]

theorem mixBytes_blockXor (M N : Block) : mixBytes (blockXor M N) = blockXor (mixBytes M) (mixBytes N) := by
  refine block_ext_cells fun r c hr hc => ?_
  rw [cellOf_blockXor _ _ hr hc, cellOf_mixBytes _ hr hc, cellOf_mixBytes _ hr hc, cellOf_mixBytes _ hr hc, ← xorSum_xor]
  refine xorSum_congr fun j _ => ?_
  rw [cellOf_blockXor _ _ (Nat.mod_lt _ (by decide)) hc, (isXtimePoly_mixMul j).map_xor]

theorem blockXor_self (M : Block) : blockXor M M = blockOfBytes fun _ => 0 :=
  block_ext_bytes fun k hk => by simp [hk]

/-- The coefficients `b` sum to 3: all but one 3 stand twice, 7 being 4 and 3. -/
theorem xorSum_mixMul (a : Byte) : (xorSum 8 fun j => mixMul j a) = mul3 a := by
  have h7 : mul7 a = mul4 a ^^^ mul3 a := BitVec.xor_assoc ..
  calc (xorSum 8 fun j => mixMul j a)
      = 0 ^^^ mul2 a ^^^ mul2 a ^^^ mul3 a ^^^ mul4 a ^^^ mul5 a ^^^ mul3 a ^^^ mul5 a ^^^ mul7 a := rfl
    _ = 0 ^^^ (mul2 a ^^^ mul2 a) ^^^ (mul3 a ^^^ mul3 a) ^^^ (mul4 a ^^^ mul4 a) ^^^ (mul5 a ^^^ mul5 a) ^^^ mul3 a := by
      rw [h7]
      ac_rfl
    _ = mul3 a := by simp

/-- Settles O40: the sum by distance from the diagonal is the product; the terms are linear and their coefficients sum to 3. -/
theorem mixBytesIsTheCirculantProduct : Obligations.MixBytesIsTheCirculantProduct := by
  refine ⟨fun M r c hr hc => cellOf_mixBytes_eq_product M hr hc, mixBytes_blockXor, ?_, fun M a c hc hcol r hr => ?_⟩
  · calc mixBytes (blockOfBytes fun _ => 0)
        = mixBytes (blockXor (blockOfBytes fun _ => 0) (blockOfBytes fun _ => 0)) := by rw [blockXor_self]
      _ = blockOfBytes fun _ => 0 := by rw [mixBytes_blockXor, blockXor_self]
  · rw [cellOf_mixBytes M hr hc, ← xorSum_mixMul]
    exact xorSum_congr fun j _ => by rw [hcol _ (Nat.mod_lt _ (by decide))]

end Sys2Proof.Machine
end

section
/-! PROOFS. P, Q and their stages are bijections (40_permutation.md R77). AddRoundConstant and SubBytes act on each cell,
ShiftBytes has a shift back, and eight MixBytes in a row multiply each cell by the eighth power of the sum of the coefficients. -/

namespace Sys2Proof.Machine

open Function

variable {r c : Nat}

/-! ### Maps that act on each cell -/

/-- Each cell replaced by its image under a map of its own. -/
def mapCells (f : Nat → Nat → Byte → Byte) (M : Block) : Block :=
  blockOfCells fun r c => f r c (cellOf M r c)

@[simp] theorem cellOf_mapCells (f : Nat → Nat → Byte → Byte) (M : Block) (hr : r < 8) (hc : c < 8) :
    cellOf (mapCells f M) r c = f r c (cellOf M r c) :=
  cellOf_blockOfCells _ hr hc

theorem mapCells_leftInverse {f g : Nat → Nat → Byte → Byte} (h : ∀ r c, LeftInverse (g r c) (f r c)) :
    LeftInverse (mapCells g) (mapCells f) := by
  refine fun M => block_ext_cells fun r c hr hc => ?_
  rw [cellOf_mapCells _ _ hr hc, cellOf_mapCells _ _ hr hc, h]

theorem mapCells_bijective {f : Nat → Nat → Byte → Byte} (h : ∀ r c, Bijective (f r c)) : Bijective (mapCells f) := by
  choose g hleft hright using fun r c => bijective_iff_has_inverse.mp (h r c)
  exact bijective_iff_has_inverse.mpr ⟨mapCells g, mapCells_leftInverse hleft, mapCells_leftInverse hright⟩

theorem xor_right_bijective (k : Byte) : Bijective fun a : Byte => a ^^^ k :=
  Involutive.bijective fun a => by simp

theorem addRoundConstantP_bijective (i : Nat) : Bijective fun M => addRoundConstantP M i := by
  refine mapCells_bijective (f := fun r c a => if r = 0 then a ^^^ BitVec.ofNat 8 (16 * c ^^^ i) else a) fun r c => ?_
  split
  · exact xor_right_bijective _
  · exact bijective_id

theorem addRoundConstantQ_bijective (i : Nat) : Bijective fun M => addRoundConstantQ M i := by
  refine mapCells_bijective
    (f := fun r c a => if r < 7 then a ^^^ 0xFF#8 else a ^^^ BitVec.ofNat 8 (0xFF ^^^ 16 * c ^^^ i)) fun r c => ?_
  split
  · exact xor_right_bijective _
  · exact xor_right_bijective _

theorem subBytes_bijective : Bijective subBytes :=
  mapCells_bijective fun _ _ => sbox_bijective

/-! ### ShiftBytes -/

theorem shiftBytes_leftInverse {sigma tau : Nat → Nat} (h : ∀ r, (tau r + sigma r) % 8 = 0) :
    LeftInverse (shiftBytes tau) (shiftBytes sigma) := by
  refine fun M => block_ext_cells fun r c hr hc => ?_
  have hback : ((c + tau r) % 8 + sigma r) % 8 = c := by
    have := h r
    omega
  rw [cellOf_shiftBytes _ _ hr hc, cellOf_shiftBytes _ _ hr (Nat.mod_lt _ (by decide)), hback]

/-- Seven times the amount is as good as shifting back. -/
theorem shiftBytes_bijective (sigma : Nat → Nat) : Bijective (shiftBytes sigma) :=
  bijective_iff_has_inverse.mpr ⟨shiftBytes fun r => 7 * sigma r,
    shiftBytes_leftInverse fun r => by omega, shiftBytes_leftInverse fun r => by omega⟩

/-! ### Circulant operators on a column, and their powers -/

/-- The sum of `m j` of the entry `s * j` places on, at each place of a column. -/
def circulant (m : Nat → Byte → Byte) (s : Nat) (v : Nat → Byte) (r : Nat) : Byte :=
  xorSum 8 fun j => m j (v (r + s * j))

/-- In a symmetric double sum the terms off the diagonal cancel in pairs. -/
theorem xorSum_xorSum_of_symmetric {g : Nat → Nat → Byte} (h : ∀ j k, g j k = g k j) (n : Nat) :
    (xorSum n fun j => xorSum n (g j)) = xorSum n fun j => g j j := by
  induction n with
  | zero => rfl
  | succ n ih =>
    have hrow : (xorSum n fun j => g j n) = xorSum n (g n) := xorSum_congr fun j _ => h j n
    calc (xorSum (n + 1) fun j => xorSum (n + 1) (g j))
        = (xorSum n fun j => xorSum n (g j) ^^^ g j n) ^^^ (xorSum n (g n) ^^^ g n n) := by simp only [xorSum_succ]
      _ = (xorSum n fun j => g j j) ^^^ xorSum n (g n) ^^^ (xorSum n (g n) ^^^ g n n) := by rw [xorSum_xor, ih, hrow]
      _ = xorSum (n + 1) fun j => g j j := by
        rw [xorSum_succ, BitVec.xor_assoc, ← BitVec.xor_assoc (xorSum n (g n)), BitVec.xor_self, BitVec.zero_xor]

section

variable {m : Nat → Byte → Byte} (hm : ∀ j, IsXtimePoly (m j))

include hm

/-- Squaring in characteristic 2 squares the terms of a sum. -/
theorem circulant_circulant (s : Nat) (v : Nat → Byte) :
    circulant m s (circulant m s v) = circulant (fun j a => m j (m j a)) (s * 2) v := by
  funext r
  have hplace (j : Nat) : r + s * j + s * j = r + s * 2 * j := by ring
  calc circulant m s (circulant m s v) r
      = xorSum 8 fun j => xorSum 8 fun k => m j (m k (v (r + s * j + s * k))) :=
        xorSum_congr fun j _ => (hm j).map_xorSum 8 _
    _ = xorSum 8 fun j => m j (m j (v (r + s * j + s * j))) :=
        xorSum_xorSum_of_symmetric (fun j k => by rw [(hm j).commute (hm k), Nat.add_right_comm]) 8
    _ = circulant (fun j a => m j (m j a)) (s * 2) v r := by simp only [hplace, circulant]

theorem circulant_iterate_two_pow (n : Nat) :
    ∃ m' : Nat → Byte → Byte, (∀ j, IsXtimePoly (m' j)) ∧ (circulant m 1)^[2 ^ n] = circulant m' (2 ^ n) := by
  induction n with
  | zero => exact ⟨m, hm, rfl⟩
  | succ n ih =>
    obtain ⟨m', hm', h⟩ := ih
    refine ⟨_, fun j => (hm' j).comp (hm' j), ?_⟩
    rw [pow_succ, iterate_mul, h]
    exact funext (circulant_circulant hm' _)

/-- On a column, whose places count modulo 8, the eighth power acts on each entry for itself: as it acts where all are equal. -/
theorem circulant_iterate_eight {v : Nat → Byte} (hv : ∀ r j, v (r + 8 * j) = v r) (r : Nat) :
    (circulant m 1)^[8] v r = (circulant m 1)^[8] (const Nat (v r)) r := by
  obtain ⟨m', -, h⟩ := circulant_iterate_two_pow hm 3
  have h8 : (circulant m 1)^[8] = circulant m' 8 := h
  simp only [h8, circulant, hv, const_apply]

end

/-! ### MixBytes -/

/-- Column `c`, its rows counted modulo 8. -/
def columnOf (c : Nat) (M : Block) (r : Nat) : Byte :=
  cellOf M (r % 8) c

theorem columnOf_mixBytes (hc : c < 8) : Semiconj (columnOf c) mixBytes (circulant mixMul 1) := by
  refine fun M => funext fun r => ?_
  rw [columnOf, cellOf_mixBytes M (Nat.mod_lt _ (by decide)) hc]
  exact xorSum_congr fun j _ => by rw [columnOf, Nat.one_mul, Nat.mod_add_mod]

theorem const_mul3 : Semiconj (const Nat) mul3 (circulant mixMul 1) :=
  fun a => funext fun _ => (xorSum_mixMul a).symm

/-- The matrix to the power 8 is `3^8` times the identity. -/
theorem mixBytes_iterate_eight : mixBytes^[8] = mapCells fun _ _ => mul3^[8] := by
  refine funext fun M => block_ext_cells fun r c hr hc => ?_
  have hv (r j : Nat) : columnOf c M (r + 8 * j) = columnOf c M r := by rw [columnOf, Nat.add_mul_mod_self_left, columnOf]
  have hcell (N : Block) : cellOf N r c = columnOf c N r := by rw [columnOf, Nat.mod_eq_of_lt hr]
  calc cellOf (mixBytes^[8] M) r c
      = (circulant mixMul 1)^[8] (columnOf c M) r := by rw [hcell, (columnOf_mixBytes hc).iterate_right 8]
    _ = (circulant mixMul 1)^[8] (const Nat (cellOf M r c)) r := by
        rw [circulant_iterate_eight isXtimePoly_mixMul hv, hcell]
    _ = mul3^[8] (cellOf M r c) := by rw [← const_mul3.iterate_right 8, const_apply]
    _ = cellOf (mapCells (fun _ _ => mul3^[8]) M) r c := by rw [cellOf_mapCells _ M hr hc]

/-- `0xF6` is the inverse of 3 in the field. -/
theorem gfMul_mul3 (a : Byte) : gfMul 0xF6#8 (mul3 a) = a := by
  revert a
  decide +kernel

theorem mul3_bijective : Bijective mul3 :=
  Finite.injective_iff_bijective.mp (LeftInverse.injective gfMul_mul3)

theorem bijective_of_iterate_succ {α : Type} {f : α → α} {n : Nat} (h : Bijective f^[n + 1]) : Bijective f :=
  ⟨Injective.of_comp (iterate_succ f n ▸ h.injective), Surjective.of_comp (iterate_succ' f n ▸ h.surjective)⟩

theorem mixBytes_bijective : Bijective mixBytes := by
  apply bijective_of_iterate_succ (n := 7)
  rw [mixBytes_iterate_eight]
  exact mapCells_bijective fun _ _ => mul3_bijective.iterate 8

/-! ### Rounds -/

theorem roundP_bijective (i : Nat) : Bijective fun M => roundP M i :=
  mixBytes_bijective.comp ((shiftBytes_bijective sigmaP).comp (subBytes_bijective.comp (addRoundConstantP_bijective i)))

theorem roundQ_bijective (i : Nat) : Bijective fun M => roundQ M i :=
  mixBytes_bijective.comp ((shiftBytes_bijective sigmaQ).comp (subBytes_bijective.comp (addRoundConstantQ_bijective i)))

theorem foldl_bijective {α ι : Type} {f : α → ι → α} (h : ∀ i, Bijective fun a => f a i) (l : List ι) :
    Bijective fun a => l.foldl f a := by
  induction l with
  | nil => exact bijective_id
  | cons i l ih => exact ih.comp (h i)

/-- Settles O42: every stage is a bijection, so every round is, and so are the ten in order. -/
theorem permutationsAreBijections : Obligations.PermutationsAreBijections :=
  ⟨foldl_bijective roundP_bijective _, foldl_bijective roundQ_bijective _, addRoundConstantP_bijective,
    addRoundConstantQ_bijective, subBytes_bijective, shiftBytes_bijective _, shiftBytes_bijective _, mixBytes_bijective⟩

end Sys2Proof.Machine
end

section
/-! PROOFS. Compression by byte, the initial value in its views, and padding (41_compression_output.md R79 to R83): the block of
a string of 64 bytes, and the length field as the last eight bytes of the last block. -/

namespace Sys2Proof.Machine

/-! ### Compression -/

theorem byteOf_compress (h m : Block) {k : Nat} (hk : k < 64) :
    byteOf (compress h m) k = byteOf (permP (blockXor h m)) k ^^^ byteOf (permQ m) k ^^^ byteOf h k := by
  rw [compress, byteOf_blockXor _ _ hk, byteOf_blockXor _ _ hk]

/-- Settles O44: XOR of blocks is bytewise, and a block XORed with itself is zero. -/
theorem compressByByte : Obligations.CompressByByte :=
  ⟨fun h m _ hk => byteOf_compress h m hk, fun m => by rw [compress, blockXor_self]⟩

/-! ### The block of a string -/

theorem byteOf_blockOfString (bs : ByteString) {k : Nat} (hk : k < 64) : byteOf (blockOfString bs) k = bs.getD k 0 :=
  byteOf_blockOfBytes _ hk

theorem blockOfString_toList {bs : ByteString} (h : bs.length = 64) : (blockOfString bs).toList = bs := by
  refine List.ext_getElem (by simp [h]) fun k hk hk' => ?_
  have hbyte := byteOf_blockOfString bs (h ▸ hk')
  rwa [byteOf, List.getD_eq_getElem _ _ hk, List.getD_eq_getElem _ _ hk'] at hbyte

theorem be64_length (n : BitVec 64) : (be64 n).length = 8 :=
  List.length_map _

theorem be64_getD (n : BitVec 64) {j : Nat} (hj : j < 8) : (be64 n).getD j 0 = n.extractLsb' (56 - 8 * j) 8 := by
  simp [be64, hj]

/-- The last `w` digits of `n` to the base 256, most significant first. -/
theorem bigEndian_sum (n w : Nat) :
    ((List.range w).map fun j => n / 256 ^ (w - 1 - j) % 256 * 256 ^ (w - 1 - j)).sum = n % 256 ^ w := by
  induction w with
  | zero => simp [Nat.mod_one]
  | succ w ih =>
    have hindex : ∀ j, w - 1 - j = w - (j + 1) := by omega
    rw [List.range_succ_eq_map, List.map_cons, List.map_map, List.sum_cons, Nat.mod_pow_succ, ← ih, Nat.add_comm, Nat.mul_comm]
    simp only [Function.comp_def, Nat.succ_eq_add_one, hindex, Nat.add_sub_cancel, Nat.sub_zero]

theorem be64_byte_toNat (n : BitVec 64) {j : Nat} (hj : j < 8) :
    (n.extractLsb' (56 - 8 * j) 8).toNat = n.toNat / 256 ^ (7 - j) % 256 := by
  have hshift : 56 - 8 * j = 8 * (7 - j) := by omega
  rw [BitVec.extractLsb'_toNat, Nat.shiftRight_eq_div_pow, hshift, Nat.pow_mul]

/-- `BE64(n)` is `n` to the base 256, most significant digit first (R8). -/
theorem be64_sum (n : BitVec 64) :
    ((List.range 8).map fun j => (n.extractLsb' (56 - 8 * j) 8).toNat * 256 ^ (7 - j)).sum = n.toNat :=
  calc ((List.range 8).map fun j => (n.extractLsb' (56 - 8 * j) 8).toNat * 256 ^ (7 - j)).sum
      = ((List.range 8).map fun j => n.toNat / 256 ^ (7 - j) % 256 * 256 ^ (7 - j)).sum :=
        congrArg List.sum (List.map_congr_left fun j hj => by rw [be64_byte_toNat n (List.mem_range.mp hj)])
    _ = n.toNat % 256 ^ 8 := bigEndian_sum n.toNat 8
    _ = n.toNat := Nat.mod_eq_of_lt n.isLt

/-- The length field of a block stands in its bytes 56 to 63 (R82). -/
theorem byteOf_lengthField {bs : ByteString} (h : bs.length = 56) (n : BitVec 64) {j : Nat} (hj : j < 8) :
    byteOf (blockOfString (bs ++ be64 n)) (56 + j) = n.extractLsb' (56 - 8 * j) 8 := by
  rw [byteOf_blockOfString _ (by omega), List.getD_append_right _ _ _ _ (by omega), h, Nat.add_sub_cancel_left, be64_getD n hj]

/-! ### The initial value -/

/-- `BE64(256)` has its one non-zero byte in place 6. -/
theorem byteOf_ivBlock {k : Nat} (hk : k < 64) : byteOf ivBlock k = if k = 62 then 0x01#8 else 0x00#8 := by
  revert k
  decide

theorem cellOf_ivBlock {r c : Nat} (hr : r < 8) (hc : c < 8) :
    cellOf ivBlock r c = if r = 6 ∧ c = 7 then 0x01#8 else 0x00#8 := by
  have hplace : 8 * c + r = 62 ↔ r = 6 ∧ c = 7 := by omega
  simp only [cellOf, byteOf_ivBlock (show 8 * c + r < 64 by omega), hplace]

theorem wordsOfBlock_getD (S : Block) {c : Nat} (hc : c < 8) (d : Word) : (wordsOfBlock S).toList.getD c d = wordOf S c := by
  interval_cases c <;> rfl

/-- The words of the IV are those the reset state holds. -/
theorem wordOf_ivBlock {c : Nat} (hc : c < 8) (d : Word) : wordOf ivBlock c = State.reset.cv.toList.getD c d := by
  rw [reset_cv, wordsOfBlock_getD ivBlock hc]

/-- Settles O45: the bytes by evaluation, the cells from the bytes, and the words from those of the reset state. -/
theorem initialValueInItsViews : Obligations.InitialValueInItsViews := by
  refine ⟨reset_cv, fun _ hk => byteOf_ivBlock hk, fun _ _ hr hc => cellOf_ivBlock hr hc, fun c hc => ?_, ?_⟩
  · exact (wordOf_ivBlock (by omega) 1).trans (reset_cv_low_words hc)
  · exact wordOf_ivBlock (by decide) 0

/-! ### Padding -/

theorem padBlockCount_of_le {L : Nat} (h : L ≤ 55) : padBlockCount L = 1 :=
  if_pos h

theorem padBlockCount_of_gt {L : Nat} (h : 55 < L) : padBlockCount L = 2 :=
  if_neg (Nat.not_le.mpr h)

theorem pad_of_le {B : ByteString} (h : B.length ≤ 55) (N : Nat) :
    pad B N = [blockOfString (B ++ [0x80#8] ++ List.replicate (55 - B.length) 0 ++ be64 (BitVec.ofNat 64 (N + 1)))] :=
  if_pos h

theorem pad_of_gt {B : ByteString} (h : 55 < B.length) (N : Nat) :
    pad B N = [blockOfString (B ++ [0x80#8] ++ List.replicate (63 - B.length) 0),
      blockOfString (List.replicate 56 0 ++ be64 (BitVec.ofNat 64 (N + 2)))] :=
  if_neg (Nat.not_le.mpr h)

/-- The buffered bytes, `0x80`, and zeros up to `n` bytes in all. -/
theorem padded_length {B : ByteString} {n : Nat} (h : B.length < n) :
    (B ++ [0x80#8] ++ List.replicate (n - 1 - B.length) 0).length = n := by
  simp only [List.length_append, List.length_singleton, List.length_replicate]
  omega

theorem pad_bytes_of_le {B : ByteString} (h : B.length ≤ 55) (N : Nat) :
    (pad B N).flatMap (fun blk => blk.toList) =
      B ++ [0x80#8] ++ List.replicate (55 - B.length) 0 ++ be64 (BitVec.ofNat 64 (N + 1)) := by
  rw [pad_of_le h, List.flatMap_singleton, blockOfString_toList]
  rw [List.length_append, padded_length (n := 56) (by omega), be64_length]

/-- The zeros that end the first block and those that start the second are one run. -/
theorem pad_bytes_of_gt {B : ByteString} (h : 55 < B.length) (h63 : B.length ≤ 63) (N : Nat) :
    (pad B N).flatMap (fun blk => blk.toList) =
      B ++ [0x80#8] ++ List.replicate (119 - B.length) 0 ++ be64 (BitVec.ofNat 64 (N + 2)) := by
  have hzeros : 119 - B.length = (63 - B.length) + 56 := by omega
  rw [pad_of_gt h, List.flatMap_cons, List.flatMap_singleton, blockOfString_toList (padded_length (n := 64) (by omega)),
    blockOfString_toList (by rw [List.length_append, List.length_replicate, be64_length]), hzeros, List.replicate_add]
  simp only [List.append_assoc]

/-- Settles O46: either the one block is the string, or the string is cut after its first 64 bytes. -/
theorem paddingBlocksByByte : Obligations.PaddingBlocksByByte :=
  fun B N h63 =>
    ⟨fun h _ => ⟨(pad_length B N).trans (padBlockCount_of_le h), pad_bytes_of_le h N⟩,
      fun h _ => ⟨(pad_length B N).trans (padBlockCount_of_gt h), pad_bytes_of_gt h h63 N⟩⟩

/-- The last padding block ends in the length field, which counts the blocks absorbed before and the padding blocks. -/
theorem pad_getLast? (B : ByteString) (N : Nat) :
    ∃ bs : ByteString, bs.length = 56 ∧
      (pad B N).getLast? = some (blockOfString (bs ++ be64 (BitVec.ofNat 64 (N + padBlockCount B.length)))) := by
  rcases Nat.lt_or_ge 55 B.length with h | h
  · refine ⟨List.replicate 56 0, List.length_replicate, ?_⟩
    rw [pad_of_gt h, padBlockCount_of_gt h]
    rfl
  · refine ⟨_, padded_length (n := 56) (B := B) (by omega), ?_⟩
    rw [pad_of_le h, padBlockCount_of_le h]
    rfl

end Sys2Proof.Machine
end

section
/-! PROOFS. FINAL in a state that holds a message (10_state.md R32 I5): the block count of R83, and the digest of R86
(42_commands.md R90). -/

namespace Sys2Proof.Machine

variable {s : State} {m : ByteString}

/-- R83: the full blocks and the padding blocks of a message of `n` bytes, counted at once. -/
theorem blockCount_eq (n : Nat) : n / 64 + padBlockCount (n % 64) = (n + 8) / 64 + 1 := by
  unfold padBlockCount
  split <;> omega

/-- FINAL's output state is that of `Groestl256(m)` (R86, R90). -/
theorem digestOf_finalOutput_of_absorbed (h : Absorbed m s) :
    digestOf (finalOutput (bufferedBytes s) s) = groestl256 m := by
  rw [finalOutput, absorbed_cvBlock h, h.bytes, absorbed_blkcnt h, groestl256]

theorem final_fits_of_absorbed (h : Absorbed m s) (hm : m.length / 64 + 2 < 2 ^ 64) :
    s.blkcnt.toNat + padBlockCount s.buflen.toNat < 2 ^ 64 := by
  rw [absorbed_blkcnt h, absorbed_buflen h, blockCount_eq]
  omega

theorem exec_final_of_absorbed (h : Absorbed m s) (hm : m.length / 64 + 2 < 2 ^ 64) :
    exec .final s = .next (finalizeWith (finalOutput (bufferedBytes s) s) (padBlockCount s.buflen.toNat) s) := by
  rw [exec_final_of_active h.phase,
    finalActive_of_fits h.buffer ((counterOverflows_eq_false_iff _).mpr (final_fits_of_absorbed h hm))]

/-- R83: what FINAL leaves in BLKCNT. -/
theorem finalizeWith_blkcnt_of_absorbed (h : Absorbed m s) (hm : m.length / 64 + 2 < 2 ^ 64) (o : Block) :
    (finalizeWith o (padBlockCount s.buflen.toNat) s).blkcnt.toNat = (m.length + 8) / 64 + 1 := by
  rw [finalizeWith_blkcnt_toNat o (final_fits_of_absorbed h hm), absorbed_blkcnt h, absorbed_buflen h, blockCount_eq]

/-- Settles O50: the count fits, so FINAL completes, and what it pads and absorbs is the rest of `m` after its full blocks. -/
theorem finalPresentsGroestl256OfTheMessage : Obligations.FinalPresentsGroestl256OfTheMessage := by
  intro m s h hm
  refine ⟨_, exec_final_of_absorbed h hm, rfl, h.errcode, ?_, finalizeWith_blkcnt_of_absorbed h hm _, rfl, rfl, rfl⟩
  rw [finalizeWith_digest, digestOf_finalOutput_of_absorbed h]

/-- R83: the last padding block of a message carries the count of its blocks in bytes 56 to 63. -/
theorem pad_restBytes_lengthField (m : ByteString) :
    ∃ blk, (pad (restBytes m) (m.length / 64)).getLast? = some blk ∧ ∀ j < 8,
      byteOf blk (56 + j) = (BitVec.ofNat 64 ((m.length + 8) / 64 + 1)).extractLsb' (56 - 8 * j) 8 := by
  obtain ⟨bs, hbs, hlast⟩ := pad_getLast? (restBytes m) (m.length / 64)
  rw [restBytes_length, blockCount_eq] at hlast
  exact ⟨_, hlast, fun j hj => byteOf_lengthField hbs _ hj⟩

/-- Settles O47: the length field byte by byte, and FINAL adding the same number of blocks to BLKCNT. -/
theorem lengthFieldCountsBlocks : Obligations.LengthFieldCountsBlocks := by
  intro m hm
  obtain ⟨blk, hlast, hbyte⟩ := pad_restBytes_lengthField m
  have hfield : (List.range 8).map (fun j => byteOf blk (56 + j)) = be64 (BitVec.ofNat 64 ((m.length + 8) / 64 + 1)) :=
    List.map_congr_left fun j hj => hbyte j (List.mem_range.mp hj)
  refine ⟨by omega, by omega, blk, hlast, hfield, hfield, ?_, fun s t h hst => ?_⟩
  · calc ((List.range 8).map fun j => (byteOf blk (56 + j)).toNat * 256 ^ (7 - j)).sum
        = (BitVec.ofNat 64 ((m.length + 8) / 64 + 1)).toNat := by
          rw [← be64_sum]
          exact congrArg List.sum (List.map_congr_left fun j hj => by rw [hbyte j (List.mem_range.mp hj)])
      _ = (m.length + 8) / 64 + 1 := by rw [BitVec.toNat_ofNat, Nat.mod_eq_of_lt (by omega)]
  · cases (exec_final_of_absorbed h hm).symm.trans hst
    exact finalizeWith_blkcnt_of_absorbed h hm _

end Sys2Proof.Machine
end

section
/-! PROOFS. Runs of presented words (70_reset_and_hazards.md R126): a run goes word by word and splits where its words do, so that
UPDATE extends the message byte by byte (42_commands.md R91) and HASH ends in FINAL's digest of it (R92). -/

namespace Sys2Proof.Machine

variable {s t : State} {m : ByteString}

/-! ### Outcomes in sequence -/

/-- Go on with `f` from a next state; a stop stays. -/
def andThen (r : Result) (f : State → Result) : Result :=
  match r with
  | .next t => f t
  | .fault e => .fault e
  | .refused e => .refused e

@[simp] theorem andThen_next (t : State) (f : State → Result) : andThen (.next t) f = f t := rfl

theorem andThen_assoc (r : Result) (f g : State → Result) :
    andThen (andThen r f) g = andThen r fun t => andThen (f t) g := by
  cases r <;> rfl

/-! ### A run word by word -/

/-- The run of the words `ws` from `s` (R126). -/
def runWords (ws : List CmdWord) (s : State) : Result :=
  core.run ws.length (presentAll ws s)

theorem run_presentAll {ws : List CmdWord} {n : Nat} (h : ws.length = n) (s : State) :
    core.run n (presentAll ws s) = runWords ws s := by
  rw [runWords, h]

/-- The host's side of the state does not enter a presented word either. -/
theorem presentWord_withHost (w : CmdWord) (s : State) (ms : List HostMove) (r : Reply) :
    presentWord w { s with moves := ms, reply := r } =
      andThen (presentWord w s) fun t => .next { t with moves := ms, reply := r } := by
  cases h : decode w with
  | ok i =>
    rw [presentWord_of_decode_ok h, presentWord_of_decode_ok h]
    exact exec_withHost i s ms r
  | error e =>
    rw [presentWord_of_decode_error h, presentWord_of_decode_error h, andThen_next]
    cases hp : s.phase <;> simp [illegalWord, raiseFault, hp]

theorem step_presentAll_cons (w : CmdWord) (ws : List CmdWord) (s : State) :
    step (presentAll (w :: ws) s) = andThen (presentWord w s) fun t => .next (presentAll ws (takeMove [] t)) :=
  (step_of_moves (presentAll_moves (w :: ws) s)).trans (presentWord_withHost w s _ _)

theorem runWords_nil (s : State) : runWords [] s = .next (presentAll [] s) := rfl

/-- The first word is run from the state itself, the others from the state it leaves, the reply gone (log 5). -/
theorem runWords_cons (w : CmdWord) (ws : List CmdWord) (s : State) :
    runWords (w :: ws) s = andThen (presentWord w s) fun t => runWords ws (takeMove [] t) := by
  calc runWords (w :: ws) s
      = andThen (step (presentAll (w :: ws) s)) (core.run ws.length) := by
        cases h : step (presentAll (w :: ws) s) <;> simp [runWords, Host.Core.run, core, h, andThen]
    _ = andThen (andThen (presentWord w s) fun t => .next (presentAll ws (takeMove [] t))) (core.run ws.length) := by
        rw [step_presentAll_cons]
    _ = andThen (presentWord w s) fun t => runWords ws (takeMove [] t) := andThen_assoc _ _ _

/-- Words presented one list after the other: the second list is run from where the first one ends. -/
theorem runWords_append (us vs : List CmdWord) (s : State) :
    runWords (us ++ vs) s = andThen (runWords us s) (runWords vs) := by
  induction us generalizing s with
  | nil => rfl
  | cons w us ih => simp only [List.cons_append, runWords_cons, andThen_assoc, ih]

/-- A command that completes, as the first of a run. -/
theorem runWords_encode_cons {i : Instr} (h : exec i s = .next t) (ws : List CmdWord) :
    runWords (encode i :: ws) s = runWords ws (takeMove [] t) := by
  rw [runWords_cons, presentWord_of_decode_ok (decode_encode i), h, andThen_next]

/-! ### UPDATE -/

/-- The words of `UPDATE m` (R59). -/
abbrev updateWords (m : ByteString) : List CmdWord :=
  encodeCommands (updateCommands m)

theorem updateWords_length (m : ByteString) : (updateWords m).length = m.length := by
  simp [encodeCommands, updateCommands]

theorem updateWords_append (a b : ByteString) : updateWords (a ++ b) = updateWords a ++ updateWords b := by
  simp [encodeCommands, updateCommands]

/-- I5 does not speak of the host's side. -/
theorem absorbed_withHost (h : Absorbed m s) (ms : List HostMove) (r : Reply) :
    Absorbed m { s with moves := ms, reply := r } :=
  ⟨h.phase, h.errcode, h.length, h.cv, h.buffer, h.bytes⟩

/-- R91: UPDATE of `bs` after `m`. -/
theorem runWords_updateWords_of_absorbed (bs : ByteString) (h : Absorbed m s) (hcount : (m ++ bs).length / 64 < 2 ^ 64) :
    ∃ t, runWords (updateWords bs) s = .next t ∧ Absorbed (m ++ bs) t := by
  induction bs generalizing m s with
  | nil => exact ⟨_, runWords_nil s, (List.append_nil m).symm ▸ absorbed_withHost h _ _⟩
  | cons b bs ih =>
    rw [List.append_cons] at hcount ⊢
    have hfits : (m.length + 1) / 64 < 2 ^ 64 := by
      simp only [List.length_append, List.length_singleton] at hcount
      omega
    obtain ⟨t, hexec, ht, -⟩ := exec_absorb_of_absorbed h b hfits
    obtain ⟨u, hrun, hu⟩ := ih (absorbed_withHost ht [] .nothing) hcount
    exact ⟨u, (runWords_encode_cons hexec _).trans hrun, hu⟩

/-- Settles O51: a run splits where its words do, and from reset each byte extends the message held. -/
theorem updateDependsOnTheConcatenation : Obligations.UpdateDependsOnTheConcatenation := by
  refine ⟨fun a b s => ?_, rfl, fun m hm => ?_⟩
  · have hlen : (updateWords (a ++ b)).length = a.length + b.length := by
      rw [updateWords_length, List.length_append]
    rw [run_presentAll hlen, run_presentAll (updateWords_length a), updateWords_append, runWords_append]
    cases runWords (updateWords a) s with
    | next u => exact (run_presentAll (updateWords_length b) u).symm
    | fault e => rfl
    | refused e => rfl
  · rw [run_presentAll (updateWords_length m)]
    exact runWords_updateWords_of_absorbed m absorbed_reset hm

/-! ### HASH -/

/-- R60: the words of HASH are those of RESET, UPDATE and FINAL. -/
theorem hashWords_eq (m : ByteString) :
    encodeCommands (hashCommands m) = encode .reset :: (updateWords m ++ [encode .final]) := by
  simp [encodeCommands, hashCommands]

theorem absorbed_resetCore (s : State) : Absorbed [] (resetCore s) :=
  absorbed_withHost absorbed_reset _ _

/-- R60, R92: what HASH runs after its RESET. -/
theorem runWords_hash (m : ByteString) (s : State) :
    runWords (encodeCommands (hashCommands m)) s =
      andThen (runWords (updateWords m) (takeMove [] (resetCore s))) (runWords [encode .final]) := by
  rw [hashWords_eq, runWords_encode_cons (i := .reset) rfl, runWords_append]

/-- Settles O52: RESET leaves no bytes absorbed whatever the state was, UPDATE the bytes `m`, and FINAL presents their digest. -/
theorem hashPresentsGroestl256 : Obligations.HashPresentsGroestl256 := by
  intro m s hm
  have hlen : (encodeCommands (hashCommands m)).length = m.length + 2 := by
    simp [hashWords_eq, updateWords_length]
  have hstart : Absorbed [] (takeMove [] (resetCore s)) := absorbed_withHost (absorbed_resetCore s) _ _
  obtain ⟨u, hupdate, hu⟩ := runWords_updateWords_of_absorbed m hstart (by rw [List.nil_append]; omega)
  obtain ⟨t, hfinal, hphase, -, hdigest, hblkcnt, hbuflen, -, -⟩ := finalPresentsGroestl256OfTheMessage m u hu hm
  refine ⟨presentAll [] (takeMove [] t), ?_, hphase, hdigest, hblkcnt, hbuflen, ?_⟩
  · rw [run_presentAll hlen, runWords_hash, hupdate, andThen_next, runWords_encode_cons hfinal]
    rfl
  · simp [runResult, digestPort, hphase, hdigest]

end Sys2Proof.Machine
end

section
/-! PROOFS. The three commands one by one (42_commands.md R87 to R90): the full next state of each outcome, what is left unchanged
(R102), and the complete transition relation of PHASE (R93). -/

namespace Sys2Proof.Machine

variable {s t : State} {d : Except Reject Instr}

/-! ### What every command leaves unchanged -/

/-- The host's side is no command's to write. -/
theorem commandStep_keeps_host (h : CommandStep d s t) : t.moves = s.moves ∧ t.reply = s.reply := by
  cases h <;> exact ⟨rfl, rfl⟩

/-- A step that ends in FAULT was ignored there, or is a fault entry and nothing else (R102, R103). -/
theorem commandStep_into_fault (h : CommandStep d s t) (ht : t.phase = .fault) :
    (s.phase = .fault ∧ t = s) ∨ ∃ e, Raises d s e ∧ t = raiseFault e s := by
  cases h with
  | reset => cases ht
  | ignored hd hp => exact .inl ⟨hp, rfl⟩
  | faulted h => exact .inr ⟨_, h, rfl⟩
  | buffered b hp | blockAbsorbed b blk hp => cases hp.symm.trans ht
  | finalized => cases ht

/-- R102: what a step that ends in FAULT keeps. -/
theorem commandStep_frame_of_fault (h : CommandStep d s t) (ht : t.phase = .fault) :
    t.cv = s.cv ∧ t.blkcnt = s.blkcnt ∧ t.buflen = s.buflen ∧ ∀ a, memByte t.buf a = memByte s.buf a := by
  rcases commandStep_into_fault h ht with ⟨-, rfl⟩ | ⟨e, -, rfl⟩
  · exact ⟨rfl, rfl, rfl, fun _ => rfl⟩
  · exact ⟨rfl, rfl, rfl, fun _ => rfl⟩

/-- Only RESET and ABSORB in ACTIVE end ACTIVE. -/
theorem commandStep_into_active (h : CommandStep d s t) (ht : t.phase = .active) :
    d = .ok .reset ∨ (s.phase = .active ∧ ∃ b, d = .ok (.absorb b)) := by
  cases h with
  | reset => exact .inl rfl
  | ignored hd hp => cases hp.symm.trans ht
  | faulted => cases ht
  | buffered b hp | blockAbsorbed b blk hp => exact .inr ⟨hp, b, rfl⟩
  | finalized => cases ht

/-! ### RESET -/

theorem statusOf_resetCore (s : State) : statusOf (resetCore s) = 0x0000#16 :=
  (statusOf_withHost State.reset _ _).trans statusOf_reset

/-- Settles O15: RESET leaves the reset state but for the host's side; in FAULT the others are ignored, and ACTIVE is entered by
RESET alone. -/
theorem resetRestoresTheResetState : Obligations.ResetRestoresTheResetState := by
  refine ⟨fun s => ⟨resetCore s, rfl, rfl, reset_cv, rfl, rfl, rfl, rfl, rfl, rfl, statusOf_resetCore s, rfl, rfl, rfl⟩,
    fun i s t hi h hp => ?_, fun i s t hi h hp ht => ?_⟩
  · cases (exec_of_fault hi hp).symm.trans h
    exact hp
  · rcases commandStep_into_active (commandStep_of_exec h) ht with hd | ⟨hp', -⟩
    · exact hi (Except.ok.inj hd)
    · cases hp.symm.trans hp'

/-! ### ABSORB -/

theorem counterOverflows_of_max {k : Nat} (hk : 1 ≤ k) (h : s.blkcnt.toNat = 2 ^ 64 - 1) : counterOverflows s k = true := by
  rw [counterOverflows_iff, h]
  exact Nat.lt_add_of_pos_right hk

theorem bufferByte_of_coherent (b : Byte) (hb : BufferCoherent s) :
    bufferByte b s = { s with buf := s.buf ++ [(s.buflen.toNat, b)], buflen := s.buflen + 1 } := by
  rw [← bufferByte_buf_of_coherent b hb]
  rfl

/-- The count written out as a number. -/
theorem absorbFullBlock_eq (blk : Block) (s : State) :
    absorbFullBlock blk s = { s with
      cv := wordsOfBlock (compress (blockOfWords s.cv) blk)
      blkcnt := BitVec.ofNat 64 (s.blkcnt.toNat + 1), buf := [], buflen := 0 } := by
  rw [BitVec.ofNat_add, BitVec.ofNat_toNat, BitVec.setWidth_eq]
  rfl

/-- Settles O17: the cases of the pseudocode, with what a coherent buffer writes and reads. -/
theorem absorbFollowsItsRule : Obligations.AbsorbFollowsItsRule := by
  refine fun s b hb => ⟨fun hp hroom => ?_, fun hp h63 hcount => ?_, fun hp h63 hcount => ?_, fun hp => ?_⟩
  · rw [exec_absorb_of_active hp, absorbActive_of_room b hroom, bufferByte_of_coherent b hb]
  · have ho : counterOverflows s 1 = false := (counterOverflows_eq_false_iff 1).mpr (by omega)
    rw [exec_absorb_of_active hp, absorbActive_of_fullBlock b hb h63 ho, absorbFullBlock_eq]
  · rw [exec_absorb_of_active hp, absorbActive_of_overflow b h63 (counterOverflows_of_max le_rfl hcount)]
    rfl
  · exact exec_of_finalized (by simp) hp

theorem exec_absorb_next_of_room {b : Byte} (h : exec (.absorb b) s = .next t) (hp : s.phase = .active)
    (hroom : s.buflen.toNat < 63) : t = bufferByte b s := by
  rw [exec_absorb_of_active hp, absorbActive_of_room b hroom] at h
  cases h
  rfl

theorem exec_absorb_next_of_full {b : Byte} (h : exec (.absorb b) s = .next t) (hp : s.phase = .active)
    (h63 : s.buflen.toNat = 63) (hfits : s.blkcnt.toNat + 1 < 2 ^ 64) : ∃ blk, t = absorbFullBlock blk s := by
  rw [exec_absorb_of_active hp] at h
  rcases absorbActive_next h with ⟨hroom, -⟩ | ⟨-, ho, -⟩ | ⟨-, -, blk, -, ht⟩
  · omega
  · rw [(counterOverflows_eq_false_iff 1).mpr hfits] at ho
    cases ho
  · exact ⟨_, ht⟩

/-- Settles O18: ABSORB writes the address BUFLEN, or empties BUF, or enters FAULT, which keeps the buffer. -/
theorem absorbFrame : Obligations.AbsorbFrame := by
  intro s t b h
  have hstep := commandStep_of_exec h
  obtain ⟨hmoves, hreply⟩ := commandStep_keeps_host hstep
  refine ⟨hmoves, hreply, fun hp hroom => ?_, fun hp h63 hcount => ?_, commandStep_frame_of_fault hstep⟩
  · cases exec_absorb_next_of_room h hp hroom
    exact ⟨rfl, rfl, bufferByte_buflen_toNat b hroom, rfl, rfl, rfl, memByte_memWrite_same _ _ _,
      fun a ha => memByte_memWrite_other _ _ _ ha⟩
  · obtain ⟨blk, rfl⟩ := exec_absorb_next_of_full h hp h63 (by omega)
    exact ⟨rfl, rfl, rfl, rfl, memByte_nil⟩

/-! ### FINAL -/

/-- Settles O19: the cases of the pseudocode; what a coherent buffer reads is its bytes. -/
theorem finalFollowsItsRule : Obligations.FinalFollowsItsRule := by
  intro s hb N k o
  refine ⟨fun hp hfits => ?_, fun hp hover => ?_, fun hp => ?_⟩
  · have ho : counterOverflows s (padBlockCount s.buflen.toNat) = false :=
      (counterOverflows_eq_false_iff k).mpr (by omega)
    rw [exec_final_of_active hp, finalActive_of_fits hb ho]
    rfl
  · have ho : counterOverflows s (padBlockCount s.buflen.toNat) = true := (counterOverflows_iff k).mpr hover
    rw [exec_final_of_active hp, finalActive_of_overflow ho]
    rfl
  · exact exec_of_finalized (by simp) hp

theorem exec_final_next_of_finalized (h : exec .final s = .next t) (ht : t.phase = .finalized) :
    s.phase = .active ∧ counterOverflows s (padBlockCount s.buflen.toNat) = false ∧
      ∃ o, t = finalizeWith o (padBlockCount s.buflen.toNat) s := by
  cases commandStep_of_exec h with
  | ignored hd hp => cases hp.symm.trans ht
  | faulted => cases ht
  | finalized B hp ho hr => exact ⟨hp, ho, _, rfl⟩

/-- Settles O20: FINAL empties BUF and counts at least one block where it completes, and elsewhere ends in FAULT. -/
theorem finalFrame : Obligations.FinalFrame := by
  intro s t h
  have hstep := commandStep_of_exec h
  obtain ⟨hmoves, hreply⟩ := commandStep_keeps_host hstep
  refine ⟨hmoves, hreply, fun ht => ?_, commandStep_frame_of_fault hstep, fun ht => ?_⟩
  · obtain ⟨hp, ho, o, rfl⟩ := exec_final_next_of_finalized h ht
    refine ⟨rfl, rfl, memByte_nil, hp, ?_⟩
    rw [finalizeWith_blkcnt_toNat o ((counterOverflows_eq_false_iff _).mp ho)]
    exact Nat.lt_add_of_pos_right (padBlockCount_pos _)
  · simpa using commandStep_into_active hstep ht

/-! ### PHASE -/

/-- Settles O26: each step of a word, in the row and column of R93's table that its premises name. -/
theorem phaseTransitionTable : Obligations.PhaseTransitionTable := by
  intro w s t h
  have hstep := commandStep_of_presentWord h
  generalize decode w = d at hstep ⊢
  cases hstep with
  | reset => cases s.phase <;> rfl
  | ignored hd hp =>
    rw [hp]
    rcases d with r | i
    · rfl
    · cases i with
      | reset => exact absurd rfl hd
      | absorb | final => rfl
  | faulted hr =>
    cases hr with
    | illegal r hp =>
      cases hphase : s.phase with
      | active | finalized => exact ⟨rfl, rfl⟩
      | fault => exact absurd hphase hp
    | @afterFinal _ i hi hp =>
      rw [hp]
      cases i with
      | reset => exact absurd rfl hi
      | absorb | final => exact ⟨rfl, rfl⟩
    | absorbOverflow b hp | finalOverflow hp => simp [hp]
  | buffered b hp hroom => simp [hp]
  | blockAbsorbed b blk hp => simp [hp]
  | finalized B hp => simp [hp]

/-! ### Illegal words -/

/-- Settles O9: the step takes the move, and the word it presents is illegal. -/
theorem stepOnAnIllegalWord : Obligations.StepOnAnIllegalWord := by
  intro s w rest r hm hd
  obtain ⟨henter, hignore⟩ := presentWord_of_illegal hd (takeMove rest s)
  rw [step_of_moves hm]
  by_cases hp : s.phase = .fault
  · rw [if_pos hp]
    exact hignore hp
  · rw [if_neg hp]
    exact henter hp

end Sys2Proof.Machine
end

section
/-! PROOFS. Faults one by one (60_exceptions.md R97 to R103), and the idle core between commands (R114). -/

namespace Sys2Proof.Machine

variable {s t : State}

/-! ### Fault entry -/

/-- R24: STATUS as a number, each field in its place. -/
theorem statusOf_toNat (s : State) :
    (statusOf s).toNat = s.phase.code.toNat + 4 * s.errcode.code.toNat + 16 * s.buflen.toNat := by
  simp only [statusOf, toNat_append_eq_add, BitVec.toNat_zero]
  omega

/-- Settles O24: what the record update of fault entry leaves alone, and that it is the one way into FAULT. -/
theorem faultEntryWritesOnlyPhaseErrcodeDigest : Obligations.FaultEntryWritesOnlyPhaseErrcodeDigest := by
  refine ⟨fun e s => ⟨rfl, rfl, rfl, rfl, rfl, rfl, rfl, statusOf_toNat (raiseFault e s)⟩, fun w s t hp h ht => ?_⟩
  rcases commandStep_into_fault (commandStep_of_presentWord h) ht with ⟨hp', -⟩ | ⟨e, hr, rfl⟩
  · exact absurd hp' hp
  · exact ⟨e, raises_errcode_ne_none hr, rfl⟩

/-! ### COUNTER_OVERFLOW -/

/-- One block more does not fit just at the largest count. -/
theorem counterOverflows_one_iff : counterOverflows s 1 = true ↔ s.blkcnt.toNat = 2 ^ 64 - 1 := by
  have hlt := s.blkcnt.isLt
  rw [counterOverflows_iff, Config.cntMax]
  omega

/-- R99: the two commands that raise COUNTER_OVERFLOW, by the values of BUFLEN and BLKCNT. -/
theorem raises_counterOverflow_iff_of_active {i : Instr} (hp : s.phase = .active) :
    Raises (.ok i) s .counterOverflow ↔
      (∃ b, i = .absorb b ∧ s.buflen.toNat = 63 ∧ s.blkcnt.toNat = 2 ^ 64 - 1) ∨
      (i = .final ∧ 2 ^ 64 - 1 < s.blkcnt.toNat + (if s.buflen.toNat ≤ 55 then 1 else 2)) := by
  constructor
  · intro h
    cases h with
    | absorbOverflow b _ h63 ho => exact .inl ⟨b, rfl, h63, counterOverflows_one_iff.mp ho⟩
    | finalOverflow _ ho => exact .inr ⟨rfl, (counterOverflows_iff _).mp ho⟩
  · rintro (⟨b, rfl, h63, hmax⟩ | ⟨rfl, hover⟩)
    · exact .absorbOverflow b hp h63 (counterOverflows_one_iff.mpr hmax)
    · exact .finalOverflow hp ((counterOverflows_iff (padBlockCount _)).mpr hover)

/-- In ACTIVE a command has no other fault to raise. -/
theorem raises_errcode_of_active {i : Instr} {e : ErrCode} (h : Raises (.ok i) s e) (hp : s.phase = .active) :
    e = .counterOverflow := by
  cases h with
  | afterFinal _ hp' => cases hp.symm.trans hp'
  | absorbOverflow | finalOverflow => rfl

theorem exec_of_raises {i : Instr} {e : ErrCode} (h : Raises (.ok i) s e) : exec i s = .next (raiseFault e s) :=
  exec_of_commandStep (.faulted h)

/-- A command that ends in FAULT from ACTIVE has raised COUNTER_OVERFLOW. -/
theorem exec_into_fault_of_active {i : Instr} (h : exec i s = .next t) (hp : s.phase = .active) (ht : t.phase = .fault) :
    Raises (.ok i) s .counterOverflow ∧ t = raiseFault .counterOverflow s := by
  rcases commandStep_into_fault (commandStep_of_exec h) ht with ⟨hp', -⟩ | ⟨e, hr, rfl⟩
  · cases hp.symm.trans hp'
  · cases raises_errcode_of_active hr hp
    exact ⟨hr, rfl⟩

/-- Settles O25: the cases that raise the fault, each of which answers fault entry, and no other step from ACTIVE into FAULT. -/
theorem counterOverflowJustWhereTheCountWouldNotFit : Obligations.CounterOverflowJustWhereTheCountWouldNotFit := by
  refine ⟨fun s b hp h63 hmax => ?_, fun s hp hover => ?_, fun i s t hp h => ⟨?_, fun ht => ?_⟩⟩
  · exact exec_of_raises ((raises_counterOverflow_iff_of_active hp).mpr (.inl ⟨b, rfl, h63, hmax⟩))
  · exact exec_of_raises ((raises_counterOverflow_iff_of_active hp).mpr (.inr ⟨rfl, hover⟩))
  · rw [← raises_counterOverflow_iff_of_active hp]
    refine ⟨fun ht => (exec_into_fault_of_active h hp ht).1, fun hr => ?_⟩
    cases h.symm.trans (exec_of_raises hr)
    rfl
  · obtain ⟨-, rfl⟩ := exec_into_fault_of_active h hp ht
    exact ⟨rfl, rfl⟩

/-! ### USE_AFTER_FINAL -/

/-- Settles O22: in FINALIZED every command but RESET answers fault entry. -/
theorem useAfterFinalIsRaised : Obligations.UseAfterFinalIsRaised :=
  fun s hp => ⟨fun _ => exec_of_finalized (by simp) hp, exec_of_finalized (by simp) hp, resetCore s, rfl, rfl, rfl⟩

/-! ### Phase FAULT and the idle core -/

/-- R103: a word that is not RESET's decodes to an ignored command or is illegal, and either is ignored. -/
theorem presentWord_of_fault {w : CmdWord} (hw : w ≠ 0x0100#16) (hp : s.phase = .fault) : presentWord w s = .next s := by
  cases hd : decode w with
  | ok i =>
    have hi : i ≠ .reset := fun hi => hw (decode_eq_reset_iff.mp (hi ▸ hd))
    rw [presentWord_of_decode_ok hd, exec_of_fault hi hp]
  | error r => exact (presentWord_of_illegal hd s).2 hp

/-- Settles O23: the commands and the words that FAULT ignores, and the one that leaves it. -/
theorem faultPhaseIgnoresAllButReset : Obligations.FaultPhaseIgnoresAllButReset :=
  fun s hp => ⟨fun _ hi => exec_of_fault hi hp, fun _ hw => presentWord_of_fault hw hp,
    resetCore s, presentWord_of_decode_ok (decode_encode .reset), rfl, rfl⟩

/-- Settles O11: `step_of_no_moves`. -/
theorem idleStepHoldsTheState : Obligations.IdleStepHoldsTheState :=
  fun _ => step_of_no_moves

end Sys2Proof.Machine
end

section
/-! PROOFS. Hardware reset, a move of the host, does what the command RESET does (70_reset_and_hazards.md R115). -/

namespace Sys2Proof.Machine

variable {s : State}

/-- R88. -/
theorem exec_reset (s : State) : exec .reset s = .next (resetCore s) := rfl

/-- R115: the core resets once the move is taken off the host's list. -/
theorem step_of_hardwareReset {rest : List HostMove} (hm : s.moves = .hardwareReset :: rest) :
    step s = .next (resetCore (takeMove rest s)) :=
  step_of_moves hm

/-- R30: of a state whose next move was just taken, reset leaves the host's remaining moves and nothing else. -/
theorem resetCore_takeMove (rest : List HostMove) (s : State) :
    resetCore (takeMove rest s) = { State.reset with moves := rest } := rfl

/-- Settles O12: the step resets the core after taking the move, as RESET does; what is left is the reset state. -/
theorem hardwareResetIsTheResetStep : Obligations.HardwareResetIsTheResetStep := by
  intro s rest hm
  have hstep : step s = .next (resetCore (takeMove rest s)) := step_of_hardwareReset hm
  constructor
  · exact hstep.trans (exec_reset (takeMove rest s)).symm
  · rw [hstep, resetCore_takeMove]

end Sys2Proof.Machine
end
